-- ==== Sys2Proof/Word.lean ====
section
/-! DEFINITION. The two bit-vector types of the block: a 32-bit register word (00_scope.md R10) and a buffer byte
(10_state.md R42). Lengths and addresses are taken to `Nat` before any arithmetic (00_scope.md R11). -/

namespace Sys2Proof

/-- A register value, a command word, a packed type code or a CRC: 32 bits (R10). -/
abbrev Word := BitVec 32

/-- A byte of buffer space, or one byte of a type code (R12). -/
abbrev Byte := BitVec 8

end Sys2Proof
end

