-- ==== Sys2Proof/Config.lean ====
section
/-! DEFINITION. What an implementation fixes, and the two values the spec leaves open. -/

namespace Sys2Proof

/-- The implementation parameters of R9 that the block itself reads back: `bufBytes` is BUF_BYTES (the value of the
BUF_SIZE register, R39), `maxChunks` is MAX_CHUNKS (the value of CT_CAP, R39). As 32-bit words they keep the upper bound
2^32 - 1 of R9 by their type; the lower bounds are `Params.wf`. The machine takes them as an argument: they are a field of
State that no step changes. -/
structure Params where
  bufBytes : Word
  maxChunks : Word
  deriving DecidableEq, Repr

/-- DESIGN CHOICE (notes/assumptions/1.md): the parameters `State.reset` carries, since R9 leaves both OPEN. They are the
smallest values the worked examples of 95_test_vectors.md assume. No statement rests on them. -/
def Config.defaultParams : Params := { bufBytes := 512, maxChunks := 8 }

/-- FREE VALUE (notes/assumptions/2.md): LATENCY of R9 and R272. `Config.latency n` says how many further steps the
n-th accepted command stays busy before the step that completes it. Nothing constrains it; being a `Nat` it is finite. -/
opaque Config.latency : Nat → Nat

/-- FREE VALUE (notes/assumptions/3.md): what the internal CRC register of the chunk and container commands holds after
the n-th accepted command (R35, R119; 93_implementation_defined.md U41 lets it hold any value between commands). -/
opaque Config.internalCrc : Nat → Word

end Sys2Proof
end

