-- ==== Sys2Proof/Syntax.lean ====
section
/-! DEFINITION. The commands of the block: one constructor per row of spec/opcode_table.json (30_encoding.md R81).
A command word has no register fields and no immediates (R80): every operand comes from an operand register, latched at
command start (R84), so no constructor has an argument. -/

namespace Sys2Proof

inductive Instr where
  | nop             -- NOP, R210
  | crcInit         -- CRC_INIT, R112
  | crcUpdate       -- CRC_UPDATE, R114
  | crcUpdateByte   -- CRC_UPDATE_BYTE, R116
  | crcCompute      -- CRC_COMPUTE, R118
  | typeParse       -- TYPE_PARSE, R135
  | typeParseText   -- TYPE_PARSE_TEXT, R136
  | chunkParse      -- CHUNK_PARSE, R152
  | chunkBuild      -- CHUNK_BUILD, R156
  | contParse       -- CONT_PARSE, R172
  | contSerialize   -- CONT_SERIALIZE, R174
  | contAppend      -- CONT_APPEND, R176
  | contFind        -- CONT_FIND, R178
  | contRemove      -- CONT_REMOVE, R180
  | contEntry       -- CONT_ENTRY, R182
  deriving DecidableEq, Repr

end Sys2Proof
end

