-- ==== Sys2Proof/WellFormed.lean ====
section
/-! DEFINITION. The checks on what comes from outside: the implementation parameters (R9), a command word (R80), the form
of a host register access (R64). A command itself carries no operand, so every `Instr` is well formed. -/

namespace Sys2Proof

/-- Every command is well formed: format C has no register fields and no immediates (R80, R91). -/
def Instr.wellFormed : Instr → Bool
  | .nop => true
  | .crcInit => true
  | .crcUpdate => true
  | .crcUpdateByte => true
  | .crcCompute => true
  | .typeParse => true
  | .typeParseText => true
  | .chunkParse => true
  | .chunkBuild => true
  | .contParse => true
  | .contSerialize => true
  | .contAppend => true
  | .contFind => true
  | .contRemove => true
  | .contEntry => true

/-- The constraints of R9: 32 <= BUF_BYTES and 1 <= MAX_CHUNKS (both at most 2^32 - 1 by their type). -/
def Params.wf (p : Params) : Bool :=
  decide (32 ≤ p.bufBytes.toNat) && decide (1 ≤ p.maxChunks.toNat)

/-- The reserved field RSV of a command word is 0, as format C requires (R80). -/
def commandWordWf (w : Word) : Bool :=
  w.extractLsb' 8 24 == 0

/-- A host register access has meaning only with 32 bits, at a multiple of 4, below 0x100 (R64). -/
def registerAccessWf (width offset : Nat) : Bool :=
  width == 32 && offset % 4 == 0 && decide (offset < 0x100)

end Sys2Proof
end

