-- ==== Sys2Proof/Decode.lean ====
section
/-! DEFINITION. Decoding a command word (30_encoding.md R80 to R83), total on every 32-bit word, and the encoder. -/

namespace Sys2Proof

/-- Why a word is illegal (R82, R83). -/
inductive DecodeError where
  /-- RSV, bits 31:8, is not 0. -/
  | reservedBits
  /-- RSV is 0 and OPCODE is a value R81 does not list. -/
  | reservedOpcode
  deriving DecidableEq, Repr

/-- The OPCODE column of R81. -/
def Instr.opcode : Instr → Byte
  | .nop => 0x00
  | .crcInit => 0x01
  | .crcUpdate => 0x02
  | .crcUpdateByte => 0x03
  | .crcCompute => 0x04
  | .typeParse => 0x10
  | .typeParseText => 0x11
  | .chunkParse => 0x20
  | .chunkBuild => 0x21
  | .contParse => 0x30
  | .contSerialize => 0x31
  | .contAppend => 0x32
  | .contFind => 0x33
  | .contRemove => 0x34
  | .contEntry => 0x35

/-- R81 read from left to right: which command an OPCODE selects. -/
def commandOfOpcode (op : Byte) : Option Instr :=
  if op = 0x00 then some .nop
  else if op = 0x01 then some .crcInit
  else if op = 0x02 then some .crcUpdate
  else if op = 0x03 then some .crcUpdateByte
  else if op = 0x04 then some .crcCompute
  else if op = 0x10 then some .typeParse
  else if op = 0x11 then some .typeParseText
  else if op = 0x20 then some .chunkParse
  else if op = 0x21 then some .chunkBuild
  else if op = 0x30 then some .contParse
  else if op = 0x31 then some .contSerialize
  else if op = 0x32 then some .contAppend
  else if op = 0x33 then some .contFind
  else if op = 0x34 then some .contRemove
  else if op = 0x35 then some .contEntry
  else none

/-- Total decoding of a command word (R82): OPCODE is bits 7:0, RSV is bits 31:8 and must be 0. -/
def decode (w : Word) : Except DecodeError Instr :=
  if commandWordWf w then
    match commandOfOpcode (w.extractLsb' 0 8) with
    | some i => .ok i
    | none => .error .reservedOpcode
  else .error .reservedBits

/-- The command word of a command: OPCODE in bits 7:0, RSV = 0 (R80). -/
def encode (i : Instr) : Word :=
  (0 : BitVec 24) ++ i.opcode

/-- The host's entry to the decoder. A command is one 32-bit word moved whole on the bus (R80, R64), so no byte order
applies to it. -/
def decodeTableWord (nbits w : Nat) : Option Instr :=
  match decode (BitVec.ofNat 32 (w % 2 ^ nbits)) with
  | .ok i => some i
  | .error _ => none

end Sys2Proof
end

