-- ==== Sys2Proof/Machine/State.lean ====
section
/-! DEFINITION. The state of the PNGme chunk core as plain data (10_state.md R20 to R48), the host's operations on it, the
reasons a step can stop, and the state after hardware reset. -/

namespace Sys2Proof.Machine

/-- ERR_CODE values, R220. `notUtf8` is reserved for the host and never written by the block (R221). -/
inductive ErrCode where
  | none
  | invalidTypeBytes
  | wrongLength
  | truncatedData
  | trailingBytes
  | incompleteChunk
  | checksumMismatch
  | badSignature
  | chunkNotFound
  | notUtf8
  | illegalCommand
  | rangeError
  | overlapError
  | noContainer
  | capacityExceeded
  | badIndex
  deriving DecidableEq, Repr

/-- ERR_FIELD values, R222. -/
inductive ErrField where
  | none
  | signature
  | length
  | type
  | data
  | crc
  | trailing
  | operand
  deriving DecidableEq, Repr

/-- The four error registers ERR_CODE, ERR_FIELD, ERR_OFFSET and ERR_INDEX (R26 to R29). -/
structure ErrorRecord where
  code : ErrCode
  field : ErrField
  offset : Word
  index : Word
  deriving DecidableEq, Repr

/-- The error registers after a command start, and after reset (R211, R47): all 0. -/
def ErrorRecord.clear : ErrorRecord := { code := .none, field := .none, offset := 0, index := 0 }

/-- The four flags of STATUS (R24). Its bits 31:4 are reserved and read 0. -/
structure Status where
  busy : Bool
  err : Bool
  found : Bool
  cvalid : Bool
  deriving DecidableEq, Repr

/-- The operand registers SRC_ADDR, SRC_LEN, DST_ADDR, TYPE and OPA (R30 to R34); also the shape of their latch (R14). -/
structure Operands where
  srcAddr : Word
  srcLen : Word
  dstAddr : Word
  type : Word
  opa : Word
  deriving DecidableEq, Repr

/-- The result registers R_LEN, R_TYPE, R_CRC, R_DATA_ADDR, R_INDEX and R_OUT_LEN (R38). -/
structure Results where
  len : Word
  type : Word
  crc : Word
  dataAddr : Word
  index : Word
  outLen : Word
  deriving DecidableEq, Repr

/-- One live entry of the chunk table (R40). -/
structure Descriptor where
  type : Word
  len : Word
  crc : Word
  addr : Word
  deriving DecidableEq, Repr

/-- The buffer (R42, R44): the written bytes only, by rising address. An address that is not listed is unwritten and has
no value. -/
abbrev Memory := List Host.Cell

/-- The 25 named registers of R45. -/
inductive Reg where
  | id | ctrl | status | cmd
  | errCode | errField | errOffset | errIndex
  | srcAddr | srcLen | dstAddr | type | opa
  | crcState | crcValue | typeFlags
  | rLen | rType | rCrc | rDataAddr | rIndex | rOutLen
  | ctCount | bufSize | ctCap
  deriving DecidableEq, Repr

/-- What comes from outside the block, one entry for one bus operation (R94) or event. A host program's branches are the
host's (R96): whichever operations it issues, they arrive here as a list. -/
inductive HostOp where
  /-- `RD`: a register read of `width` bits at `offset` (R64). -/
  | rd (width offset : Nat)
  /-- `WR`: a register write of `width` bits at `offset` (R64). -/
  | wr (width offset : Nat) (value : Word)
  /-- `RB`: the buffer port's BufRead (R61). -/
  | rb (addr : Nat)
  /-- `WB`: the buffer port's BufWrite (R61). -/
  | wb (addr : Nat) (byte : Byte)
  /-- `WAIT`: read STATUS, again and again until BUSY = 0 (R95, R213). -/
  | wait
  /-- The reset input, or power-on (R260). -/
  | hardReset
  deriving DecidableEq, Repr

/-- What a host read returned. -/
inductive Reply where
  | word (v : Word)
  | byte (b : Byte)
  deriving DecidableEq, Repr

/-- The whole state. The last four fields are the MODEL's own: see INVENTORY.md. -/
structure State where
  /-- BUF_BYTES and MAX_CHUNKS, read by BUF_SIZE and CT_CAP (R9, R39). -/
  params : Params
  /-- STATUS (R24), with the busy state (R43) and the container-valid flag (R41). -/
  status : Status
  /-- ERR_CODE, ERR_FIELD, ERR_OFFSET, ERR_INDEX (R26 to R29). -/
  err : ErrorRecord
  /-- SRC_ADDR, SRC_LEN, DST_ADDR, TYPE, OPA (R30 to R34). -/
  opnd : Operands
  /-- CRC_STATE (R35); CRC_VALUE is computed from it (R36). -/
  crcState : Word
  /-- TYPE_FLAGS (R37). -/
  typeFlags : Word
  /-- R_LEN, R_TYPE, R_CRC, R_DATA_ADDR, R_INDEX, R_OUT_LEN (R38). -/
  res : Results
  /-- The live entries of the chunk table, in container order (R40); CT_COUNT is the length of this list (R39). -/
  ct : List Descriptor
  /-- The byte buffer with its written marks (R42, R44). -/
  buf : Memory
  /-- The command word last accepted (R25, R75); the running command's while BUSY = 1. -/
  cmdWord : Word
  /-- SRC, LEN, DST, TY and OP as latched at the last command start (R14, R211). -/
  latch : Operands
  /-- The internal CRC register of the chunk and container commands (R35, R119). -/
  crcInternal : Word
  /-- MODEL: further steps the running command stays busy before the step that completes it (R43, R272). -/
  delay : Nat
  /-- MODEL: how many commands have been accepted, which numbers the draws of the free values. -/
  draws : Nat
  /-- MODEL: the host's operations still to come, the next one first. -/
  inputs : List HostOp
  /-- MODEL: what the host's reads returned, the latest first. -/
  replies : List Reply
  deriving DecidableEq, Repr

/-- The model faults of R240. Each stops the machine: the spec gives the host action or the read no meaning, and R240 has
the model show a fault where the silicon returns some value or ignores the access (safe). An access that is a model fault on
two grounds takes one name, by the model's choice (notes/assumptions/7.md). -/
inductive Fault where
  /-- MF1 and MF6: the host's BufRead of an unwritten byte (R44). Raised by the buffer port. Safe. -/
  | hostReadUnwritten
  /-- MF2 and MF6: a command's MemRead over an unwritten byte (R44). Raised by a command's meaning. Safe. -/
  | commandReadUnwritten
  /-- MF3: BufRead or BufWrite at an address >= BUF_BYTES (R61). Raised by the buffer port. Safe. -/
  | bufferAddressOutside
  /-- MF4: a register access that is not 32 bits wide, not at a multiple of 4, or at an offset >= 0x100 (R64). Raised by
  the register port. Safe. -/
  | registerAccessMalformed
  /-- MF5: a host access while BUSY = 1 other than a read of STATUS or a write of CTRL (R268). Raised by either port. Safe. -/
  | accessWhileBusy
  deriving DecidableEq, Repr

/-- Reasons to refuse a command. Every command of the table has a meaning, so no step answers with one. -/
inductive Refusal where
  /-- An instruction that has no meaning yet, by its mnemonic. Raised by `exec`'s refused arms only, of which there are
  none. Safe. -/
  | notModelled (mnemonic : String)
  deriving DecidableEq, Repr

/-- The outcome of a step of this machine. -/
abbrev Result := Host.Outcome State Fault Refusal

/-- The state after hardware reset of a block with parameters `p` (R47, R260): every register at its reset value, no live
table entry, every buffer byte unwritten. `cmdWord`, `latch` and `crcInternal` are not read before a command start writes
them; the spec gives them no reset value and the model says 0 (DESIGN CHOICE, notes/assumptions/4.md and 5.md). The last
four fields are the model's own (notes/assumptions/6.md). -/
def State.resetOf (p : Params) : State where
  params := p
  status := { busy := false, err := false, found := false, cvalid := false }
  err := ErrorRecord.clear
  opnd := { srcAddr := 0, srcLen := 0, dstAddr := 0, type := 0, opa := 0 }
  crcState := 0xFFFFFFFF
  typeFlags := 0
  res := { len := 0, type := 0, crc := 0, dataAddr := 0, index := 0, outLen := 0 }
  ct := []
  buf := []
  cmdWord := 0
  latch := { srcAddr := 0, srcLen := 0, dstAddr := 0, type := 0, opa := 0 }
  crcInternal := 0
  delay := 0
  draws := 0
  inputs := []
  replies := []

/-- The machine right after reset, with the parameters of `Config.defaultParams`. -/
def State.reset : State := State.resetOf Config.defaultParams

end Sys2Proof.Machine
end

