-- ==== Sys2Proof/Machine/Ops.lean ====
section
/-! DEFINITION. The shared operations: the byte buffer, range checks, named updates of State, command start, `finish` and
error entry. -/

namespace Sys2Proof.Machine

/-! ## The buffer (20_memory.md) -/

/-- The canonical form of a buffer: addresses strictly rising (so no address twice). An unlisted address is unwritten and
has no value, so no entry can equal what an unlisted address reads as. -/
abbrev Memory.wf (m : Memory) : Prop := m.Pairwise (fun x y => x.1 < y.1)

/-- The byte at an address, or `none` where it is unwritten (R44). -/
def Memory.read : Memory → Nat → Option Byte
  | [], _ => none
  | (k, v) :: rest, a => if k = a then some v else Memory.read rest a

/-- Store one byte and mark it written (R44, R61). -/
def Memory.write : Memory → Nat → Byte → Memory
  | [], a, b => [(a, b)]
  | (k, v) :: rest, a, b =>
    if a < k then (a, b) :: (k, v) :: rest
    else if a = k then (a, b) :: rest
    else (k, v) :: Memory.write rest a b

/-- MemRead(a, n) of R13: the n bytes from address a, or `none` if one of them is unwritten. -/
def Memory.readRange (m : Memory) (a : Nat) : Nat → Option (List Byte)
  | 0 => some []
  | n + 1 =>
    match m.read a with
    | none => none
    | some b =>
      match Memory.readRange m (a + 1) n with
      | none => none
      | some bs => some (b :: bs)

/-- MemWrite(a, n, s) of R13, with n = len(s). -/
def Memory.writeRange (m : Memory) (a : Nat) : List Byte → Memory
  | [] => m
  | b :: bs => Memory.writeRange (m.write a b) (a + 1) bs

/-- Make the n bytes from address a unwritten (R270). -/
def Memory.eraseRange (m : Memory) (a n : Nat) : Memory :=
  m.filter (fun c => !(decide (a ≤ c.1) && decide (c.1 < a + n)))

/-- InRange(a, n) of R62, in exact arithmetic. -/
abbrev State.InRange (s : State) (a n : Nat) : Prop := a + n ≤ s.params.bufBytes.toNat

/-- Overlaps(a, n, b, m) of R63, in exact arithmetic. -/
abbrev Overlaps (a n b m : Nat) : Prop := 0 < n ∧ 0 < m ∧ a < b + m ∧ b < a + n

/-! ## Named updates of State -/

def State.setBusy (s : State) (v : Bool) : State := { s with status := { s.status with busy := v } }

def State.setFound (s : State) (v : Bool) : State := { s with status := { s.status with found := v } }

def State.setCrcState (s : State) (v : Word) : State := { s with crcState := v }

def State.setTypeFlags (s : State) (v : Word) : State := { s with typeFlags := v }

def State.setType (s : State) (v : Word) : State := { s with opnd := { s.opnd with type := v } }

def State.setResults (s : State) (r : Results) : State := { s with res := r }

def State.setTable (s : State) (valid : Bool) (ct : List Descriptor) : State :=
  { s with ct := ct, status := { s.status with cvalid := valid } }

def State.setBuf (s : State) (m : Memory) : State := { s with buf := m }

/-! ## Command start, finish and error entry -/

/-- Command start with word `w`, to complete after `delay` further steps (R211): BUSY is set, ERR, FOUND and the error
registers are cleared, the operands are latched. CVALID is not cleared. Decoding and the pseudocode follow in the step that
completes the command (R43). -/
def State.commandStart (s : State) (w : Word) (delay : Nat) : State :=
  { s with
    status := { s.status with busy := true, err := false, found := false }
    err := ErrorRecord.clear
    latch := s.opnd
    cmdWord := w
    delay := delay
    draws := s.draws + 1 }

/-- `finish` (R212): the command's writes stand, and BUSY is cleared. -/
def State.finish (s : State) : State := s.setBusy false

/-- Error entry (R226), the block's exception: it records the error, sets ERR and clears BUSY. It saves no return point,
changes no mode and runs no handler, and nothing returns from it (R227). -/
def State.raise (s : State) (e : ErrorRecord) : State :=
  { s with err := e, status := { s.status with err := true, busy := false } }

/-- Error(code, field, offset, index) with its numbers as the registers hold them. -/
def errorAt (code : ErrCode) (field : ErrField) (offset index : Nat) : ErrorRecord :=
  { code := code, field := field, offset := BitVec.ofNat 32 offset, index := BitVec.ofNat 32 index }

/-- A command that ends in an error: a next state (R241). -/
def State.fail (s : State) (e : ErrorRecord) : Result := .next (s.raise e)

/-- A command that ends successfully. -/
def State.done (s : State) : Result := .next s.finish

/-- Go on with MemRead(a, n), or fault where a byte of it is unwritten (R44, MF2). -/
def State.withBytes (s : State) (a n : Nat) (k : List Byte → Result) : Result :=
  match s.buf.readRange a n with
  | none => .fault .commandReadUnwritten
  | some bs => k bs

/-- The check every container command but CONT_PARSE makes first (R170). -/
def State.withContainer (s : State) (k : Result) : Result :=
  if s.status.cvalid then k else s.fail (errorAt .noContainer .operand 0 0)

end Sys2Proof.Machine
end

