-- ==== Sys2Proof/Machine/Operands.lean ====
section
/-! DEFINITION. How operands and wire fields are formed: big-endian packing (00_scope.md R12, 20_memory.md R65), the packing of a type code
(30_encoding.md R90), the latched operands (R14, R84), the signature (R85) and the frame layout (R86, 42_chunk.md R151). -/

namespace Sys2Proof.Machine

/-- be32 of R12: the first byte is the most significant. -/
def be32 (b0 b1 b2 b3 : Byte) : Word := b0 ++ b1 ++ b2 ++ b3

/-- be32bytes of R12, the inverse of be32. -/
def be32Bytes (v : Word) : List Byte :=
  [v.extractLsb' 24 8, v.extractLsb' 16 8, v.extractLsb' 8 8, v.extractLsb' 0 8]

/-- be32(b[i..i+4)): the 32-bit field at position i of a byte sequence. Used only where len(b) >= i + 4. -/
def word32At (b : List Byte) (i : Nat) : Word :=
  be32 (b.getD i 0) (b.getD (i + 1) 0) (b.getD (i + 2) 0) (b.getD (i + 3) 0)

/-- Type byte k of a packed type code, k in 0..3 (R90): bits 31-8k down to 24-8k. -/
def typeByte (t : Word) (k : Nat) : Byte := t.extractLsb' (24 - 8 * k) 8

/-- SIG, the container signature (R85). -/
def signature : List Byte := [0x89, 0x50, 0x4E, 0x47, 0x0D, 0x0A, 0x1A, 0x0A]

/-- Frame(L, t, d, c) of R151, laid out as R86 says. -/
def frameBytes (len type : Word) (data : List Byte) (crc : Word) : List Byte :=
  be32Bytes len ++ be32Bytes type ++ data ++ be32Bytes crc

/-- SRC of R14, as a buffer address. -/
def State.src (s : State) : Nat := s.latch.srcAddr.toNat

/-- LEN of R14, as a number of bytes. -/
def State.len (s : State) : Nat := s.latch.srcLen.toNat

/-- DST of R14, as a buffer address. -/
def State.dst (s : State) : Nat := s.latch.dstAddr.toNat

/-- TY of R14, a packed type code. -/
def State.ty (s : State) : Word := s.latch.type

/-- OP of R14. -/
def State.op (s : State) : Word := s.latch.opa

/-- OP[7:0], the byte CRC_UPDATE_BYTE feeds (R34, R116). -/
def State.opByte (s : State) : Byte := s.latch.opa.extractLsb' 0 8

end Sys2Proof.Machine
end

