-- ==== Sys2Proof/Machine/Flags.lean ====
section
/-! DEFINITION. The letter predicates (00_scope.md R18), the type-code predicates and the flag word (41_type_code.md R130 to
R137), and the words STATUS, ERR_CODE and ERR_FIELD read as (10_state.md R24, 60_exceptions.md R220, R222). -/

namespace Sys2Proof.Machine

/-- R18. -/
def isUpper (b : Byte) : Bool := decide (0x41 ≤ b.toNat) && decide (b.toNat ≤ 0x5A)

/-- R18. -/
def isLower (b : Byte) : Bool := decide (0x61 ≤ b.toNat) && decide (b.toNat ≤ 0x7A)

/-- R18. -/
def isAlpha (b : Byte) : Bool := isUpper b || isLower b

/-- TypeOk of R130. -/
def typeOk (t : Word) : Bool :=
  isAlpha (typeByte t 0) && isAlpha (typeByte t 1) && isAlpha (typeByte t 2) && isAlpha (typeByte t 3)

/-- FirstBad of R130: the least k with not IsAlpha(t_k). Used only where `typeOk` fails. -/
def firstBad (t : Word) : Nat :=
  if !isAlpha (typeByte t 0) then 0
  else if !isAlpha (typeByte t 1) then 1
  else if !isAlpha (typeByte t 2) then 2
  else 3

/-- R131. -/
def isCritical (t : Word) : Bool := isUpper (typeByte t 0)

/-- R132. -/
def isPublic (t : Word) : Bool := isUpper (typeByte t 1)

/-- R133. -/
def isReservedBitValid (t : Word) : Bool := isUpper (typeByte t 2)

/-- R134. -/
def isSafeToCopy (t : Word) : Bool := isLower (typeByte t 3)

/-- R133: overall validity is the same predicate as reserved-bit validity, kept under its own name. -/
def isValidType (t : Word) : Bool := isReservedBitValid t

/-- A predicate counts as 1 when true and 0 when false (R137). -/
def bit (p : Bool) : Word := if p then 1 else 0

/-- Flags(t) of R137. -/
def typeFlagsOf (t : Word) : Word :=
  bit (isCritical t) * 0x01 + bit (isPublic t) * 0x02 + bit (isReservedBitValid t) * 0x04
    + bit (isSafeToCopy t) * 0x08 + bit (isValidType t) * 0x10

/-- The word STATUS reads as (R24); bits 31:4 read 0. -/
def Status.word (t : Status) : Word :=
  bit t.busy * 0x01 + bit t.err * 0x02 + bit t.found * 0x04 + bit t.cvalid * 0x08

/-- The numbers of R220. -/
def ErrCode.word : ErrCode → Word
  | .none => 0x00
  | .invalidTypeBytes => 0x01
  | .wrongLength => 0x02
  | .truncatedData => 0x03
  | .trailingBytes => 0x04
  | .incompleteChunk => 0x05
  | .checksumMismatch => 0x06
  | .badSignature => 0x07
  | .chunkNotFound => 0x08
  | .notUtf8 => 0x09
  | .illegalCommand => 0x10
  | .rangeError => 0x11
  | .overlapError => 0x12
  | .noContainer => 0x13
  | .capacityExceeded => 0x14
  | .badIndex => 0x15

/-- The numbers of R222. -/
def ErrField.word : ErrField → Word
  | .none => 0
  | .signature => 1
  | .length => 2
  | .type => 3
  | .data => 4
  | .crc => 5
  | .trailing => 6
  | .operand => 7

end Sys2Proof.Machine
end

