-- ==== Sys2Proof/Machine/Chunk.lean ====
section
/-! DEFINITION. The chunk frame parser and serializer (42_chunk.md). -/

namespace Sys2Proof.Machine

/-- ParseFrame(base, b) of R150. `Ok(L, t, stored, dataAddr)` is given as the descriptor of the parsed chunk; an error
carries index 0. -/
def parseFrame (base : Nat) (b : List Byte) : Except ErrorRecord Descriptor :=
  let n := b.length
  let len := word32At b 0
  let L := len.toNat
  let t := word32At b 4
  let stored := word32At b (8 + L)
  if n < 4 then .error (errorAt .truncatedData .length base 0)
  else if n < 8 then .error (errorAt .truncatedData .type (base + 4) 0)
  else if !typeOk t then .error (errorAt .invalidTypeBytes .type (base + 4 + firstBad t) 0)
  else if n - 8 < L then .error (errorAt .truncatedData .data (base + 8) 0)
  else if n - 8 - L < 4 then .error (errorAt .truncatedData .crc (base + 8 + L) 0)
  else if n > 12 + L then .error (errorAt .trailingBytes .trailing (base + 12 + L) 0)
  else if crc32 (be32Bytes t ++ (b.drop 8).take L) ≠ stored then
    .error (errorAt .checksumMismatch .crc (base + 8 + L) 0)
  else .ok { type := t, len := len, crc := stored, addr := BitVec.ofNat 32 (base + 8) }

/-- CHUNK_PARSE, R152: the whole range is read at command start, before any format check. -/
def execChunkParse (s : State) : Result :=
  if ¬ s.InRange s.src s.len then s.fail (errorAt .rangeError .operand 0x20 0)
  else s.withBytes s.src s.len fun b =>
    match parseFrame s.src b with
    | .error e => s.fail e
    | .ok d =>
      ((s.setResults { s.res with
          len := d.len
          type := d.type
          crc := d.crc
          dataAddr := d.addr
          outLen := BitVec.ofNat 32 (12 + d.len.toNat) }).setTypeFlags (typeFlagsOf d.type)).done

/-- The checks of CHUNK_BUILD in their order (R156, R225): the error of the first that fails, if any. -/
def chunkBuildCheck (s : State) : Option ErrorRecord :=
  if !typeOk s.ty then some (errorAt .invalidTypeBytes .type (firstBad s.ty) 0)
  else if ¬ s.InRange s.src s.len then some (errorAt .rangeError .operand 0x20 0)
  else if ¬ s.InRange s.dst (12 + s.len) then some (errorAt .rangeError .operand 0x28 0)
  else if Overlaps s.src s.len s.dst (12 + s.len) then some (errorAt .overlapError .operand 0x28 0)
  else none

/-- CHUNK_BUILD, R156. -/
def execChunkBuild (s : State) : Result :=
  match chunkBuildCheck s with
  | some e => s.fail e
  | none => s.withBytes s.src s.len fun d =>
    let c := crc32 (be32Bytes s.ty ++ d)
    (((s.setBuf (s.buf.writeRange s.dst (frameBytes s.latch.srcLen s.ty d c))).setResults { s.res with
        len := s.latch.srcLen
        type := s.ty
        crc := c
        dataAddr := BitVec.ofNat 32 (s.dst + 8)
        outLen := BitVec.ofNat 32 (12 + s.len) }).setTypeFlags (typeFlagsOf s.ty)).done

end Sys2Proof.Machine
end

