-- ==== Sys2Proof/Machine/Container.lean ====
section
/-! DEFINITION. The container validator and reassembler (43_container.md). -/

namespace Sys2Proof.Machine

/-- The `while` loop of CONT_PARSE (R172). `pos` is the buffer address SRC + p, `i` the chunk index, `rest` the bytes
b[p..LEN), `tbl` the table so far. Every turn consumes at least 12 bytes, so `fuel` = the number of bytes given is never
used up while bytes remain. -/
def parseChunks (cap : Nat) : Nat → Nat → Nat → List Byte → List Descriptor → Except ErrorRecord (List Descriptor)
  | 0, _, _, _, tbl => .ok tbl
  | fuel + 1, pos, i, rest, tbl =>
    let rem := rest.length
    let L := (word32At rest 0).toNat
    if rem = 0 then .ok tbl
    else if rem < 4 then .error (errorAt .incompleteChunk .length pos i)
    else if rem < 8 then .error (errorAt .incompleteChunk .type (pos + 4) i)
    else if rem < 8 + L then .error (errorAt .incompleteChunk .data (pos + 8) i)
    else if rem < 12 + L then .error (errorAt .incompleteChunk .crc (pos + 8 + L) i)
    else
      match parseFrame pos (rest.take (12 + L)) with
      | .error e => .error { e with index := BitVec.ofNat 32 i }
      | .ok d =>
        if i = cap then .error (errorAt .capacityExceeded .operand pos i)
        else parseChunks cap fuel (pos + 12 + L) (i + 1) (rest.drop (12 + L)) (tbl ++ [d])

/-- CONT_PARSE's validation of the bytes b read at SRC (R172): the table, or the first error. -/
def parseContainer (cap src : Nat) (b : List Byte) : Except ErrorRecord (List Descriptor) :=
  if b.length < 8 ∨ b.take 8 ≠ signature then .error (errorAt .badSignature .signature src 0)
  else parseChunks cap b.length (src + 8) 0 (b.drop 8) []

/-- `fail` of R172: any failure of CONT_PARSE leaves no container. -/
def State.failParse (s : State) (e : ErrorRecord) : Result := (s.setTable false []).fail e

/-- CONT_PARSE, R172. -/
def execContParse (s : State) : Result :=
  if ¬ s.InRange s.src s.len then s.failParse (errorAt .rangeError .operand 0x20 0)
  else s.withBytes s.src s.len fun b =>
    match parseContainer s.params.maxChunks.toNat s.src b with
    | .error e => s.failParse e
    | .ok tbl => ((s.setTable true tbl).setResults { s.res with outLen := s.latch.srcLen }).done

/-- Bytes(e) of R171, or `none` if a byte of the referenced region is unwritten. -/
def descriptorBytes (m : Memory) (e : Descriptor) : Option (List Byte) :=
  match m.readRange e.addr.toNat e.len.toNat with
  | none => none
  | some d => some (frameBytes e.len e.type d e.crc)

/-- The frames of the descriptors in order (R88, R171). -/
def framesImage (m : Memory) : List Descriptor → Option (List Byte)
  | [] => some []
  | e :: es =>
    match descriptorBytes m e, framesImage m es with
    | some x, some y => some (x ++ y)
    | _, _ => none

/-- The length of those frames: the sum of 12 + len (R88). -/
def framesLen : List Descriptor → Nat
  | [] => 0
  | e :: es => 12 + e.len.toNat + framesLen es

/-- ImageLen of R171, in exact arithmetic. -/
def imageLen (ct : List Descriptor) : Nat := 8 + framesLen ct

/-- The checks of CONT_SERIALIZE in their order (R174, R225): the error of the first that fails, if any. -/
def contSerializeCheck (s : State) : Option ErrorRecord :=
  if !s.status.cvalid then some (errorAt .noContainer .operand 0 0)
  else if ¬ s.InRange s.dst (imageLen s.ct) then some (errorAt .rangeError .operand 0x28 0)
  else if s.ct.any (fun e => decide (Overlaps s.dst (imageLen s.ct) e.addr.toNat e.len.toNat)) then
    some (errorAt .overlapError .operand 0x28 0)
  else none

/-- CONT_SERIALIZE, R174. -/
def execContSerialize (s : State) : Result :=
  match contSerializeCheck s with
  | some e => s.fail e
  | none =>
    match framesImage s.buf s.ct with
    | none => .fault .commandReadUnwritten
    | some frames =>
      ((s.setBuf (s.buf.writeRange s.dst (signature ++ frames))).setResults { s.res with
          outLen := BitVec.ofNat 32 (imageLen s.ct) }).done

/-- Report descriptor e at index j: the writes CONT_APPEND, CONT_FIND, CONT_REMOVE and CONT_ENTRY share (R46). -/
def State.report (s : State) (e : Descriptor) (j : Nat) : State :=
  (s.setResults { s.res with
      len := e.len
      type := e.type
      crc := e.crc
      dataAddr := e.addr
      index := BitVec.ofNat 32 j }).setTypeFlags (typeFlagsOf e.type)

/-- CONT_APPEND, R176. -/
def execContAppend (s : State) : Result :=
  s.withContainer <|
    if !typeOk s.ty then s.fail (errorAt .invalidTypeBytes .type (firstBad s.ty) 0)
    else if ¬ s.InRange s.src s.len then s.fail (errorAt .rangeError .operand 0x20 0)
    else if s.ct.length = s.params.maxChunks.toNat then s.fail (errorAt .capacityExceeded .operand 0 0)
    else s.withBytes s.src s.len fun d =>
      let e : Descriptor :=
        { type := s.ty, len := s.latch.srcLen, crc := crc32 (be32Bytes s.ty ++ d), addr := s.latch.srcAddr }
      ((s.setTable true (s.ct ++ [e])).report e s.ct.length).done

/-- The first descriptor of type `ty` with its index, counting from `j` (R178, R180, R138). -/
def findFirst (ty : Word) : Nat → List Descriptor → Option (Nat × Descriptor)
  | _, [] => none
  | j, e :: es => if e.type = ty then some (j, e) else findFirst ty (j + 1) es

/-- CONT_FIND, R178. -/
def execContFind (s : State) : Result :=
  s.withContainer <|
    match findFirst s.ty 0 s.ct with
    | none => s.done
    | some (j, e) => ((s.setFound true).report e j).done

/-- CONT_REMOVE, R180. -/
def execContRemove (s : State) : Result :=
  s.withContainer <|
    match findFirst s.ty 0 s.ct with
    | none => s.fail (errorAt .chunkNotFound .operand 0x2C 0)
    | some (j, e) => ((s.setTable true (s.ct.eraseIdx j)).report e j).done

/-- CONT_ENTRY, R182. -/
def execContEntry (s : State) : Result :=
  s.withContainer <|
    match s.ct[s.op.toNat]? with
    | none => s.fail (errorAt .badIndex .operand 0x30 0)
    | some e => (s.report e s.op.toNat).done

end Sys2Proof.Machine
end

