-- ==== Sys2Proof/Machine/Bus.lean ====
section
/-! DEFINITION. What the host and the reset input can do to the block: the register port (10_state.md R21 to R45,
20_memory.md R64), the buffer port (R61), soft and hardware reset (70_reset_and_hazards.md R260 to R270), and the wait for
BUSY = 0 (30_encoding.md R95). -/

namespace Sys2Proof.Machine

/-- The register at an offset, R45. Offsets 0x64 to 0xFC name no register. -/
def registerAt (offset : Nat) : Option Reg :=
  if offset = 0x00 then some .id
  else if offset = 0x04 then some .ctrl
  else if offset = 0x08 then some .status
  else if offset = 0x0C then some .cmd
  else if offset = 0x10 then some .errCode
  else if offset = 0x14 then some .errField
  else if offset = 0x18 then some .errOffset
  else if offset = 0x1C then some .errIndex
  else if offset = 0x20 then some .srcAddr
  else if offset = 0x24 then some .srcLen
  else if offset = 0x28 then some .dstAddr
  else if offset = 0x2C then some .type
  else if offset = 0x30 then some .opa
  else if offset = 0x34 then some .crcState
  else if offset = 0x38 then some .crcValue
  else if offset = 0x3C then some .typeFlags
  else if offset = 0x40 then some .rLen
  else if offset = 0x44 then some .rType
  else if offset = 0x48 then some .rCrc
  else if offset = 0x4C then some .rDataAddr
  else if offset = 0x50 then some .rIndex
  else if offset = 0x54 then some .rOutLen
  else if offset = 0x58 then some .ctCount
  else if offset = 0x5C then some .bufSize
  else if offset = 0x60 then some .ctCap
  else none

/-- The word a register reads as (R21 to R39). CTRL and CMD are write-only and read 0 (R23, R25). -/
def State.readReg (s : State) : Reg → Word
  | .id => 0x504E4743
  | .ctrl => 0
  | .status => s.status.word
  | .cmd => 0
  | .errCode => s.err.code.word
  | .errField => s.err.field.word
  | .errOffset => s.err.offset
  | .errIndex => s.err.index
  | .srcAddr => s.opnd.srcAddr
  | .srcLen => s.opnd.srcLen
  | .dstAddr => s.opnd.dstAddr
  | .type => s.opnd.type
  | .opa => s.opnd.opa
  | .crcState => s.crcState
  | .crcValue => s.crcState ^^^ 0xFFFFFFFF
  | .typeFlags => s.typeFlags
  | .rLen => s.res.len
  | .rType => s.res.type
  | .rCrc => s.res.crc
  | .rDataAddr => s.res.dataAddr
  | .rIndex => s.res.index
  | .rOutLen => s.res.outLen
  | .ctCount => BitVec.ofNat 32 s.ct.length
  | .bufSize => s.params.bufBytes
  | .ctCap => s.params.maxChunks

/-- The buffer range a command writes if every check in its pseudocode passes (R270): (DST, 12 + LEN) for CHUNK_BUILD,
(DST, ImageLen) for CONT_SERIALIZE, none for any other command. -/
def outputRange (s : State) : Instr → Option (Nat × Nat)
  | .nop => none
  | .crcInit => none
  | .crcUpdate => none
  | .crcUpdateByte => none
  | .crcCompute => none
  | .typeParse => none
  | .typeParseText => none
  | .chunkParse => none
  | .chunkBuild => if chunkBuildCheck s = none then some (s.dst, 12 + s.len) else none
  | .contParse => none
  | .contSerialize => if contSerializeCheck s = none then some (s.dst, imageLen s.ct) else none
  | .contAppend => none
  | .contFind => none
  | .contRemove => none
  | .contEntry => none

/-- The buffer after the running command, if any, is aborted (R270). -/
def State.abortedBuf (s : State) : Memory :=
  if s.status.busy then
    match decode s.cmdWord with
    | .error _ => s.buf
    | .ok i =>
      match outputRange s i with
      | none => s.buf
      | some (a, n) => s.buf.eraseRange a n
  else s.buf

/-- Every register at its reset value (R47) over the given buffer. What is not the block's (the parameters, the host's
operations, what it has read, the count of the free values' draws) stays; the internal CRC register, which no rule resets,
stays too. -/
def State.resetRegs (s : State) (buf : Memory) : State :=
  { State.resetOf s.params with
    buf := buf
    crcInternal := s.crcInternal
    draws := s.draws
    inputs := s.inputs
    replies := s.replies }

/-- Soft reset, R262 and R270. -/
def State.softReset (s : State) : State := s.resetRegs s.abortedBuf

/-- Hardware reset, R260: every buffer byte becomes unwritten. -/
def State.hardReset (s : State) : State := s.resetRegs []

/-- A register write (R45). Writing CTRL with bit 0 = 1 is a soft reset (R23); writing CMD starts a command (R25, R211),
which stays busy for as long as the free value LATENCY says (R272); the operand registers store; every other register
ignores the write. -/
def State.writeReg (s : State) (r : Reg) (v : Word) : State :=
  match r with
  | .id => s
  | .ctrl => if v.getLsbD 0 then s.softReset else s
  | .status => s
  | .cmd => s.commandStart v (Config.latency s.draws)
  | .errCode => s
  | .errField => s
  | .errOffset => s
  | .errIndex => s
  | .srcAddr => { s with opnd := { s.opnd with srcAddr := v } }
  | .srcLen => { s with opnd := { s.opnd with srcLen := v } }
  | .dstAddr => { s with opnd := { s.opnd with dstAddr := v } }
  | .type => { s with opnd := { s.opnd with type := v } }
  | .opa => { s with opnd := { s.opnd with opa := v } }
  | .crcState => s
  | .crcValue => s
  | .typeFlags => s
  | .rLen => s
  | .rType => s
  | .rCrc => s
  | .rDataAddr => s
  | .rIndex => s
  | .rOutLen => s
  | .ctCount => s
  | .bufSize => s
  | .ctCap => s

/-- Record what a host read returned. -/
def State.reply (s : State) (r : Reply) : State := { s with replies := r :: s.replies }

/-- A register read on the bus (R64, R268, R45). A read that is malformed faults as MF4, busy or not: DESIGN CHOICE, R240
ranks no two of its faults (notes/assumptions/7.md). -/
def hostRead (s : State) (width offset : Nat) : Result :=
  if !registerAccessWf width offset then .fault .registerAccessMalformed
  else
    match registerAt offset with
    | none => if s.status.busy then .fault .accessWhileBusy else .next (s.reply (.word 0))
    | some r =>
      if s.status.busy && r != .status then .fault .accessWhileBusy
      else .next (s.reply (.word (s.readReg r)))

/-- A register write on the bus (R64, R268, R45). A write that is malformed faults as MF4, busy or not: DESIGN CHOICE, R240
ranks no two of its faults (notes/assumptions/7.md). -/
def hostWrite (s : State) (width offset : Nat) (v : Word) : Result :=
  if !registerAccessWf width offset then .fault .registerAccessMalformed
  else
    match registerAt offset with
    | none => if s.status.busy then .fault .accessWhileBusy else .next s
    | some r =>
      if s.status.busy && r != .ctrl then .fault .accessWhileBusy
      else .next (s.writeReg r v)

/-- BufRead (R61, R44, R268). While BUSY = 1 it faults as MF5, also at an address >= BUF_BYTES (MF3) and of an unwritten byte
(MF1): DESIGN CHOICE, R240 ranks no two of its faults (notes/assumptions/7.md). -/
def bufRead (s : State) (a : Nat) : Result :=
  if s.status.busy then .fault .accessWhileBusy
  else if s.params.bufBytes.toNat ≤ a then .fault .bufferAddressOutside
  else
    match s.buf.read a with
    | none => .fault .hostReadUnwritten
    | some b => .next (s.reply (.byte b))

/-- BufWrite (R61, R44, R268). While BUSY = 1 it faults as MF5, also at an address >= BUF_BYTES (MF3): DESIGN CHOICE, R240
ranks no two of its faults (notes/assumptions/7.md). -/
def bufWrite (s : State) (a : Nat) (b : Byte) : Result :=
  if s.status.busy then .fault .accessWhileBusy
  else if s.params.bufBytes.toNat ≤ a then .fault .bufferAddressOutside
  else .next (s.setBuf (s.buf.write a b))

/-- One turn of WAIT (R95): read STATUS; the operation stays first in line while BUSY = 1. -/
def hostWait (s : State) : Result :=
  .next { s.reply (.word s.status.word) with
    inputs := if s.status.busy then HostOp.wait :: s.inputs else s.inputs }

/-- The host's operation `op`, the rest of its operations being `s.inputs`. -/
def hostAccess (s : State) (op : HostOp) : Result :=
  match op with
  | .rd width offset => hostRead s width offset
  | .wr width offset v => hostWrite s width offset v
  | .rb a => bufRead s a
  | .wb a b => bufWrite s a b
  | .wait => hostWait s
  | .hardReset => .next s.hardReset

/-- The host's turn: its next operation, if it has one. With none the block keeps all its state (R239). -/
def hostTurn (s : State) : Result :=
  match s.inputs with
  | [] => .next s
  | op :: rest => hostAccess { s with inputs := rest } op

end Sys2Proof.Machine
end

