-- ==== Sys2Proof/Machine/Control.lean ====
section
/-! DEFINITION. Control commands (44_control.md). -/

namespace Sys2Proof.Machine

/-- NOP, R210: nothing beyond command start and finish. -/
def execNop (s : State) : Result := s.done

end Sys2Proof.Machine
end

