-- ==== Sys2Proof/Machine/TypeCode.lean ====
section
/-! DEFINITION. The chunk type code unit (41_type_code.md). -/

namespace Sys2Proof.Machine

/-- TYPE_PARSE, R135. -/
def execTypeParse (s : State) : Result :=
  if !typeOk s.ty then s.fail (errorAt .invalidTypeBytes .type (firstBad s.ty) 0)
  else (s.setTypeFlags (typeFlagsOf s.ty)).done

/-- TYPE_PARSE_TEXT, R136. -/
def execTypeParseText (s : State) : Result :=
  if ¬ s.InRange s.src s.len then s.fail (errorAt .rangeError .operand 0x20 0)
  else if s.len ≠ 4 then s.fail (errorAt .wrongLength .type s.src 0)
  else s.withBytes s.src 4 fun text =>
    let t := word32At text 0
    if !typeOk t then s.fail (errorAt .invalidTypeBytes .type (s.src + firstBad t) 0)
    else ((s.setType t).setTypeFlags (typeFlagsOf t)).done

end Sys2Proof.Machine
end

