-- ==== Sys2Proof/Machine/Dispatch.lean ====
section
/-! DEFINITION. One meaning per command. -/

namespace Sys2Proof.Machine

def exec (i : Instr) (s : State) : Host.Outcome State Fault Refusal :=
  match i with
  | .nop => Sys2Proof.Machine.execNop s
  | .crcInit => Sys2Proof.Machine.execCrcInit s
  | .crcUpdate => Sys2Proof.Machine.execCrcUpdate s
  | .crcUpdateByte => Sys2Proof.Machine.execCrcUpdateByte s
  | .crcCompute => Sys2Proof.Machine.execCrcCompute s
  | .typeParse => Sys2Proof.Machine.execTypeParse s
  | .typeParseText => Sys2Proof.Machine.execTypeParseText s
  | .chunkParse => Sys2Proof.Machine.execChunkParse s
  | .chunkBuild => Sys2Proof.Machine.execChunkBuild s
  | .contParse => Sys2Proof.Machine.execContParse s
  | .contSerialize => Sys2Proof.Machine.execContSerialize s
  | .contAppend => Sys2Proof.Machine.execContAppend s
  | .contFind => Sys2Proof.Machine.execContFind s
  | .contRemove => Sys2Proof.Machine.execContRemove s
  | .contEntry => Sys2Proof.Machine.execContEntry s

end Sys2Proof.Machine
end

