-- ==== Sys2Proof/Machine/Engine.lean ====
section
/-! DEFINITION. The command engine (44_control.md): completing the running command, and one step of the machine. -/

namespace Sys2Proof.Machine

/-- Between commands the internal CRC register of the chunk and container commands holds any value
(93_implementation_defined.md U41): a fresh free value after every command. -/
def State.settle (s : State) : State := { s with crcInternal := Config.internalCrc s.draws }

/-- `settle` on the next state of an outcome. -/
def settled : Result → Result
  | .next t => .next t.settle
  | .fault f => .fault f
  | .refused r => .refused r

/-- The step in which the running command takes effect as a whole (R43, R211, R212): decode its word; an illegal word ends in
IllegalCommand (R82), a legal one runs. -/
def complete (s : State) : Result :=
  settled <|
    match decode s.cmdWord with
    | .error _ => s.fail (errorAt .illegalCommand .none 0x0C 0)
    | .ok i => exec i s

/-- One step. An idle block takes the host's next operation. A busy block either completes its command or, while the delay
lasts, stays busy one step longer, in which the host may act (R43, R268, R272). -/
def advance (s : State) : Result :=
  if s.status.busy then
    match s.delay with
    | 0 => complete s
    | d + 1 => hostTurn { s with delay := d }
  else hostTurn s

end Sys2Proof.Machine
end

