-- ==== Sys2Proof/Machine/Step.lean ====
section
/-! DEFINITION. The step function, and how the host's check places a command word. -/

namespace Sys2Proof.Machine

/-- One step of the machine. -/
def step (s : State) : Host.Outcome State Fault Refusal := advance s

/-- The block fetches nothing (R22, R75): a command word reaches it as a register write to CMD. This is `s` just after the
block has accepted `w` (R211), due to complete in the very next step, so that step runs exactly that command. -/
def State.withFetchWord (s : State) (nbits w : Nat) : State :=
  s.commandStart (BitVec.ofNat 32 (w % 2 ^ nbits)) 0

end Sys2Proof.Machine
end

