-- ==== Sys2Proof/Safety.lean ====
section
/-! DEFINITION. The terms claims are stated in: what the buffer holds, chunks and their wire form, the invariant of the
block, and what a safe run is. -/

namespace Sys2Proof.Machine

/-- The bytes `bs` stand in the buffer from address `a`, every one of them written. -/
def State.Holds (s : State) (a : Nat) (bs : List Byte) : Prop :=
  ∀ k, k < bs.length → s.buf.read (a + k) = bs[k]?

/-- A byte of the range (a, n) is unwritten (R44). -/
def State.Unwritten (s : State) (a n : Nat) : Prop :=
  ∃ k, k < n ∧ s.buf.read (a + k) = none

/-- A chunk as data, apart from any buffer: a type code and its data bytes (R16, R40). -/
structure Chunk where
  type : Word
  data : List Byte
  deriving DecidableEq, Repr

/-- The chunk can be put on the wire: its type bytes are letters and its length fits the 32-bit length field (R87, R10). -/
def Chunk.ok (c : Chunk) : Prop := typeOk c.type = true ∧ c.data.length < 2 ^ 32

/-- The CRC covers the type and data fields (R87). -/
def Chunk.crc (c : Chunk) : Word := crc32 (be32Bytes c.type ++ c.data)

/-- The chunk's well-formed frame (R86, R87). -/
def Chunk.frame (c : Chunk) : List Byte := frameBytes (BitVec.ofNat 32 c.data.length) c.type c.data c.crc

/-- The descriptor of the chunk whose frame stands at buffer address `pos` (R172). -/
def Chunk.entry (c : Chunk) (pos : Nat) : Descriptor :=
  { type := c.type, len := BitVec.ofNat 32 c.data.length, crc := c.crc, addr := BitVec.ofNat 32 (pos + 8) }

/-- The frames of the chunks one after another, with no padding (R88). -/
def framesOf : List Chunk → List Byte
  | [] => []
  | c :: cs => c.frame ++ framesOf cs

/-- The table of the chunks whose frames stand one after another from buffer address `pos` (R172). -/
def tableOf : Nat → List Chunk → List Descriptor
  | _, [] => []
  | pos, c :: cs => c.entry pos :: tableOf (pos + 12 + c.data.length) cs

/-- Descriptor `e` refers to the data of chunk `c` as the buffer of `s` holds it, with `c`'s type, length and CRC: the
source's Chunk invariant holds of it (R40, R184). -/
def State.RefersTo (s : State) (e : Descriptor) (c : Chunk) : Prop :=
  e.type = c.type ∧ e.len.toNat = c.data.length ∧ e.crc = c.crc ∧ s.Holds e.addr.toNat c.data

/-- The reset value of each register, as the table of R47 gives it. -/
def resetValue (p : Params) : Reg → Word
  | .id => 0x504E4743
  | .ctrl => 0
  | .status => 0
  | .cmd => 0
  | .errCode => 0
  | .errField => 0
  | .errOffset => 0
  | .errIndex => 0
  | .srcAddr => 0
  | .srcLen => 0
  | .dstAddr => 0
  | .type => 0
  | .opa => 0
  | .crcState => 0xFFFFFFFF
  | .crcValue => 0
  | .typeFlags => 0
  | .rLen => 0
  | .rType => 0
  | .rCrc => 0
  | .rDataAddr => 0
  | .rIndex => 0
  | .rOutLen => 0
  | .ctCount => 0
  | .bufSize => p.bufBytes
  | .ctCap => p.maxChunks

/-- Every register reads its reset value, no table entry is live and no command runs (R47, R260). -/
def State.AtReset (s : State) : Prop :=
  (∀ r, s.readReg r = resetValue s.params r) ∧ s.ct = [] ∧
    s.status = { busy := false, err := false, found := false, cvalid := false }

/-- The byte sequence with bit `j` of its byte `k` flipped. -/
def flipBit (bs : List Byte) (k j : Nat) : List Byte := bs.modify k (fun b => b ^^^ ((1 : Byte) <<< j))

/-- The bytes the descriptors' frames have when the data of each is the entry of `ds` at its place (R171). -/
def framesWith : List Descriptor → List (List Byte) → List Byte
  | e :: es, d :: ds => frameBytes e.len e.type d e.crc ++ framesWith es ds
  | _, _ => []

/-- The state a failed CONT_PARSE leaves: the error recorded, and no container (R172, R226). -/
def State.parseFailed (s : State) (e : ErrorRecord) : State :=
  { s with err := e, ct := [], status := { s.status with err := true, busy := false, cvalid := false } }

/-- The state any other failed command leaves: the error recorded, and nothing else (R226). -/
def State.failed (s : State) (e : ErrorRecord) : State :=
  { s with err := e, status := { s.status with err := true, busy := false } }

/-- The invariant of the block: what its rules promise of every state between steps. -/
structure State.Inv (s : State) : Prop where
  /-- The parameters meet R9. -/
  params : s.params.wf = true
  /-- The buffer is in canonical form, so equal buffers are equal data. -/
  bufCanonical : s.buf.wf
  /-- Only addresses below BUF_BYTES are written (R42). -/
  bufInside : ∀ c ∈ s.buf, c.1 < s.params.bufBytes.toNat
  /-- CT_COUNT <= MAX_CHUNKS (R39). -/
  tableFits : s.ct.length ≤ s.params.maxChunks.toNat
  /-- When CVALID = 0, CT_COUNT = 0 (R41). -/
  noContainer : s.status.cvalid = false → s.ct = []
  /-- A descriptor's type is always 4 letters (R40). -/
  typesAreLetters : ∀ e ∈ s.ct, typeOk e.type = true
  /-- Every live descriptor's region is in range (R171). -/
  regionsInRange : ∀ e ∈ s.ct, s.InRange e.addr.toNat e.len.toNat
  /-- STATUS.ERR is 1 iff ERR_CODE is not 0 (R24, R26). -/
  errFlag : s.status.err = true ↔ s.err.code ≠ .none
  /-- With ERR_CODE = 0 the other error registers are 0 (R27 to R29). -/
  errClear : s.err.code = .none → s.err = ErrorRecord.clear
  /-- The block never writes NotUtf8 (R221). -/
  neverNotUtf8 : s.err.code ≠ .notUtf8
  /-- TYPE_FLAGS bits 31:5 are 0 (R37). -/
  flagsReserved : ∀ k, 5 ≤ k → s.typeFlags.getLsbD k = false
  /-- TYPE_FLAGS bit 4 equals bit 2 (R37, R133). -/
  flagsValid : s.typeFlags.getLsbD 4 = s.typeFlags.getLsbD 2
  /-- STATUS.FOUND = 1 only of a command that raised no error (R24). -/
  foundNoErr : s.status.found = true → s.status.err = false
  /-- While BUSY = 1 the flags and error registers are as command start left them, and the latched operands still equal the
  operand registers, which the host may not write (R211, R268, R278). -/
  busyStarted : s.status.busy = true → s.status.err = false ∧ s.status.found = false ∧ s.latch = s.opnd

/-- A safe run: no step of it stops with a model fault (R240). -/
def Safe (s : State) : Prop := ∀ k f, Sys2Proof.core.run k s ≠ .fault f

end Sys2Proof.Machine
end

