-- ==== Sys2Proof/Certificates/Slice0/Obligations.lean ====
section
/-! DEFINITION. The statements for the provers. A command's meaning runs in the step that completes it, on a state in which
command start has latched the operands (R211): `s.src`, `s.len`, `s.dst`, `s.ty`, `s.op` are the latched SRC, LEN, DST, TY, OP
of R14. An equation `exec i s = .next { s with … }` gives the command's result and says that everything it does not list is
unchanged. -/

open Sys2Proof Sys2Proof.Machine

/-! ## Encoding -/

/-- The opcode map of R81, word by word, and a word of each kind of reserved encoding (R83). -/
def Obligations.CommandWordsDecode : Prop :=
  decode 0x00000000 = .ok .nop ∧ decode 0x00000001 = .ok .crcInit ∧ decode 0x00000002 = .ok .crcUpdate ∧
  decode 0x00000003 = .ok .crcUpdateByte ∧ decode 0x00000004 = .ok .crcCompute ∧ decode 0x00000010 = .ok .typeParse ∧
  decode 0x00000011 = .ok .typeParseText ∧ decode 0x00000020 = .ok .chunkParse ∧ decode 0x00000021 = .ok .chunkBuild ∧
  decode 0x00000030 = .ok .contParse ∧ decode 0x00000031 = .ok .contSerialize ∧ decode 0x00000032 = .ok .contAppend ∧
  decode 0x00000033 = .ok .contFind ∧ decode 0x00000034 = .ok .contRemove ∧ decode 0x00000035 = .ok .contEntry ∧
  decode 0x00000005 = .error .reservedOpcode ∧ decode 0x00000100 = .error .reservedBits

/-- Each command has exactly one word, and decoding and encoding are inverse to each other (R80, R82). -/
def Obligations.DecodeAcceptsExactlyEncodings : Prop :=
  ∀ (w : Word) (i : Instr), decode w = .ok i ↔ w = encode i

/-- R83: a word whose RSV is not 0, or whose OPCODE is in a reserved range, completes as IllegalCommand with field NONE and
offset 0x0C and changes nothing else of the block (the internal CRC register takes its free value, as after every command).
The free value and the delay are the model's choice (log entries 2 and 3). -/
def Obligations.ReservedWordsAreIllegal : Prop :=
  ∀ s : State, s.status.busy = true → s.delay = 0 →
    (s.cmdWord.extractLsb' 8 24 ≠ 0 ∨
      (0x05 ≤ (s.cmdWord.extractLsb' 0 8).toNat ∧ (s.cmdWord.extractLsb' 0 8).toNat ≤ 0x0F) ∨
      (0x12 ≤ (s.cmdWord.extractLsb' 0 8).toNat ∧ (s.cmdWord.extractLsb' 0 8).toNat ≤ 0x1F) ∨
      (0x22 ≤ (s.cmdWord.extractLsb' 0 8).toNat ∧ (s.cmdWord.extractLsb' 0 8).toNat ≤ 0x2F) ∨
      0x36 ≤ (s.cmdWord.extractLsb' 0 8).toNat) →
    step s = .next { s with
      err := { code := .illegalCommand, field := .none, offset := 0x0C, index := 0 }
      status := { s.status with err := true, busy := false }
      crcInternal := Config.internalCrc s.draws }

/-! ## The command protocol -/

/-- R211: what a write of `w` to CMD does while BUSY = 0 (first clause), and that the step completing the command decodes the
word and runs its pseudocode or raises IllegalCommand (second clause). The delay is the free value LATENCY.
That it is drawn then, and that decoding falls into the completing step, is the model's choice (log entries 2 and 15); so is
the free value the internal CRC register takes in that step, `settle` (log entry 3). -/
def Obligations.CommandStartClearsAndLatches : Prop :=
  (∀ (s : State) (w : Word) (rest : List HostOp), s.status.busy = false → s.inputs = .wr 32 0x0C w :: rest →
    step s = .next { s with
      status := { s.status with busy := true, err := false, found := false }
      err := { code := .none, field := .none, offset := 0, index := 0 }
      latch := s.opnd
      cmdWord := w
      delay := Config.latency s.draws
      draws := s.draws + 1
      inputs := rest }) ∧
  (∀ s : State, s.status.busy = true → s.delay = 0 →
    (∀ i, decode s.cmdWord = .ok i → step s = settled (exec i s)) ∧
    (∀ e, decode s.cmdWord = .error e → step s = .next (s.failed
      { code := .illegalCommand, field := .none, offset := 0x0C, index := 0 }).settle))

/-- A step runs the decoded command: the step that completes a command is `exec` of it at that state, then the internal CRC
register takes its free value; so it is for the word `withFetchWord` places.
The delay and the free value are the model's choice (log entries 2, 3 and 8). -/
def Obligations.StepRunsTheDecodedCommand : Prop :=
  (∀ (s : State) (i : Instr), s.status.busy = true → s.delay = 0 → decode s.cmdWord = .ok i →
    (∀ t, exec i s = .next t → step s = .next { t with crcInternal := Config.internalCrc t.draws }) ∧
    (∀ f, exec i s = .fault f → step s = .fault f)) ∧
  (∀ (s : State) (w : Word) (i : Instr), decode w = .ok i →
    step (s.withFetchWord 32 w.toNat) = settled (exec i (s.commandStart w 0)))

/-- Every command completes after a finite delay (R272): with no host operation in the way, the delay's steps and one more
run it, on the state command start left (first clause), or raise IllegalCommand where its word is illegal (second clause).
The delay in steps and the free value the internal CRC register takes in the last of them are the model's choice (log
entries 2 and 3). -/
def Obligations.CommandCompletesAfterItsDelay : Prop :=
  ∀ s : State, s.status.busy = true → s.inputs = [] →
    (∀ i, decode s.cmdWord = .ok i →
      Sys2Proof.core.run (s.delay + 1) s = settled (exec i { s with delay := 0 })) ∧
    (∀ e, decode s.cmdWord = .error e → Sys2Proof.core.run (s.delay + 1) s = .next { s with
      delay := 0
      err := { code := .illegalCommand, field := .none, offset := 0x0C, index := 0 }
      status := { s.status with err := true, busy := false }
      crcInternal := Config.internalCrc s.draws })

/-- The loop of WAIT ends (R213, R272): while BUSY = 1 every turn reads STATUS and stays, after completion one more turn reads
STATUS and the host goes on; so it is after a legal word (first clause) and after an illegal one (second clause).
The delay in steps, the list of operations and the free value the internal CRC register takes on completion are the model's
choice (log entries 2, 3 and 9). -/
def Obligations.WaitLoopEnds : Prop :=
  ∀ (s : State) (rest : List HostOp), s.status.busy = true → s.inputs = .wait :: rest →
    (∀ (i : Instr) (t : State), decode s.cmdWord = .ok i →
      exec i { s with delay := 0, replies := List.replicate s.delay (.word s.status.word) ++ s.replies } = .next t →
      t.status.busy = false ∧
      Sys2Proof.core.run (s.delay + 2) s = .next { t with
        inputs := rest
        replies := .word t.status.word :: t.replies
        crcInternal := Config.internalCrc t.draws }) ∧
    (∀ e, decode s.cmdWord = .error e → Sys2Proof.core.run (s.delay + 2) s = .next { s with
      delay := 0
      err := { code := .illegalCommand, field := .none, offset := 0x0C, index := 0 }
      status := { s.status with err := true, busy := false }
      inputs := rest
      replies := .word ({ s.status with err := true, busy := false } : Status).word ::
        (List.replicate s.delay (.word s.status.word) ++ s.replies)
      crcInternal := Config.internalCrc s.draws })

/-- R210: NOP is the word 0 alone and does nothing beyond `finish` (first two clauses); run as a whole from an idle block,
command start and finish are all that is seen of it (third clause): the error registers, ERR and FOUND are cleared and
everything else of the block is kept.
The latency in steps and the internal CRC register's free value are the model's choice (log entries 2 and 3). -/
def Obligations.NopOnlyStartsAndFinishes : Prop :=
  (∀ w : Word, decode w = .ok .nop ↔ w = 0x00000000) ∧
  (∀ s : State, exec .nop s = .next { s with status := { s.status with busy := false } }) ∧
  (∀ s : State, s.status.busy = false → s.inputs = [.wr 32 0x0C 0] →
    Sys2Proof.core.run (Config.latency s.draws + 2) s = .next { s with
      status := { s.status with err := false, found := false }
      err := { code := .none, field := .none, offset := 0, index := 0 }
      latch := s.opnd
      cmdWord := 0
      delay := 0
      draws := s.draws + 1
      inputs := []
      crcInternal := Config.internalCrc (s.draws + 1) })

/-- Every command is total (R215): it completes with BUSY = 0, or faults because a buffer byte is unwritten; it is never
refused. -/
def Obligations.EveryCommandCompletesOrReadsUnwritten : Prop :=
  ∀ (i : Instr) (s : State), s.Inv →
    (∃ t, exec i s = .next t ∧ t.status.busy = false) ∨
    (exec i s = .fault .commandReadUnwritten ∧ ∃ a, a < s.params.bufBytes.toNat ∧ s.buf.read a = none)

/-- No command's result depends on time, on LATENCY, or on anything outside the block (R215): replacing the delay, the draw
count, the host's operations and replies, the accepted word and the internal CRC register changes nothing but these.
The delay, the draw count, the operations and the replies are the model's own fields (log entry 6). -/
def Obligations.CommandsIgnoreTimeAndTheOutside : Prop :=
  ∀ (i : Instr) (s : State) (d n : Nat) (ins : List HostOp) (reps : List Reply) (c w : Word),
    exec i { s with delay := d, draws := n, inputs := ins, replies := reps, crcInternal := c, cmdWord := w } =
      match exec i s with
      | .next t => .next { t with delay := d, draws := n, inputs := ins, replies := reps, crcInternal := c, cmdWord := w }
      | .fault f => .fault f
      | .refused r => .refused r

/-- R226: a failed command changes only the error state, STATUS.ERR and BUSY, and, for CONT_PARSE, CT_COUNT and CVALID. -/
def Obligations.FailedCommandChangesOnlyErrorState : Prop :=
  ∀ (i : Instr) (s t : State), s.err.code = .none → exec i s = .next t → t.err.code ≠ .none →
    t = { s with
      err := t.err
      status := { s.status with
        err := true
        busy := false
        cvalid := if i = .contParse then false else s.status.cvalid }
      ct := if i = .contParse then [] else s.ct }

/-- Which command may write what (R46, R278, R42): everything not listed for a command is unchanged by it, whether it
succeeds or fails.
The clause about the internal CRC register, in which R35 has the chunk and container commands compute, is the model's choice:
it takes its free value when the command completes, outside the meaning (log entry 3).
The clauses about the delay, the draw count, the host's operations and its replies speak of the model's own fields (log
entry 6). -/
def Obligations.CommandsWriteOnlyTheirRegisters : Prop :=
  ∀ (i : Instr) (s t : State), exec i s = .next t →
    t.params = s.params ∧ t.latch = s.latch ∧ t.cmdWord = s.cmdWord ∧ t.crcInternal = s.crcInternal ∧
    t.delay = s.delay ∧ t.draws = s.draws ∧ t.inputs = s.inputs ∧ t.replies = s.replies ∧
    t.opnd.srcAddr = s.opnd.srcAddr ∧ t.opnd.srcLen = s.opnd.srcLen ∧ t.opnd.dstAddr = s.opnd.dstAddr ∧
    t.opnd.opa = s.opnd.opa ∧ (i ≠ .typeParseText → t.opnd.type = s.opnd.type) ∧
    (i ∉ [.crcInit, .crcUpdate, .crcUpdateByte, .crcCompute] → t.crcState = s.crcState) ∧
    (i ∉ [.typeParse, .typeParseText, .chunkParse, .chunkBuild, .contAppend, .contFind, .contRemove, .contEntry] →
      t.typeFlags = s.typeFlags) ∧
    (i ∉ [.chunkParse, .chunkBuild, .contAppend, .contFind, .contRemove, .contEntry] →
      t.res.len = s.res.len ∧ t.res.type = s.res.type ∧ t.res.crc = s.res.crc ∧ t.res.dataAddr = s.res.dataAddr) ∧
    (i ∉ [.contAppend, .contFind, .contRemove, .contEntry] → t.res.index = s.res.index) ∧
    (i ∉ [.chunkParse, .chunkBuild, .contParse, .contSerialize] → t.res.outLen = s.res.outLen) ∧
    (i ∉ [.contParse, .contAppend, .contRemove] → t.ct = s.ct) ∧
    (i ≠ .contParse → t.status.cvalid = s.status.cvalid) ∧
    (i ≠ .contFind → t.status.found = s.status.found) ∧
    (i ∉ [.chunkBuild, .contSerialize] → ∀ a, t.buf.read a = s.buf.read a)

/-- The numbers ERR_CODE and ERR_FIELD read as (R220, R222). -/
def Obligations.ErrorNumbersAreTheTables : Prop :=
  ErrCode.none.word = 0x00 ∧ ErrCode.invalidTypeBytes.word = 0x01 ∧ ErrCode.wrongLength.word = 0x02 ∧
  ErrCode.truncatedData.word = 0x03 ∧ ErrCode.trailingBytes.word = 0x04 ∧ ErrCode.incompleteChunk.word = 0x05 ∧
  ErrCode.checksumMismatch.word = 0x06 ∧ ErrCode.badSignature.word = 0x07 ∧ ErrCode.chunkNotFound.word = 0x08 ∧
  ErrCode.notUtf8.word = 0x09 ∧ ErrCode.illegalCommand.word = 0x10 ∧ ErrCode.rangeError.word = 0x11 ∧
  ErrCode.overlapError.word = 0x12 ∧ ErrCode.noContainer.word = 0x13 ∧ ErrCode.capacityExceeded.word = 0x14 ∧
  ErrCode.badIndex.word = 0x15 ∧
  ErrField.none.word = 0 ∧ ErrField.signature.word = 1 ∧ ErrField.length.word = 2 ∧ ErrField.type.word = 3 ∧
  ErrField.data.word = 4 ∧ ErrField.crc.word = 5 ∧ ErrField.trailing.word = 6 ∧ ErrField.operand.word = 7

/-! ## The host's accesses -/

/-- R45: the 25 registers at their offsets and what each reads as; reserved offsets read 0; a write to a read-only register or
a reserved offset is ignored; the operand registers store. -/
def Obligations.RegisterSpaceReadsAndWrites : Prop :=
  ∀ (s : State) (rest : List HostOp), s.status.busy = false →
    (∀ p ∈ ([(0x00, 0x504E4743), (0x04, 0), (0x0C, 0),
        (0x08, BitVec.ofNat 32 (2 * s.status.err.toNat + 4 * s.status.found.toNat + 8 * s.status.cvalid.toNat)),
        (0x10, s.err.code.word), (0x14, s.err.field.word), (0x18, s.err.offset), (0x1C, s.err.index),
        (0x20, s.opnd.srcAddr), (0x24, s.opnd.srcLen), (0x28, s.opnd.dstAddr), (0x2C, s.opnd.type), (0x30, s.opnd.opa),
        (0x34, s.crcState), (0x38, s.crcState ^^^ 0xFFFFFFFF), (0x3C, s.typeFlags),
        (0x40, s.res.len), (0x44, s.res.type), (0x48, s.res.crc), (0x4C, s.res.dataAddr), (0x50, s.res.index),
        (0x54, s.res.outLen), (0x58, BitVec.ofNat 32 s.ct.length), (0x5C, s.params.bufBytes),
        (0x60, s.params.maxChunks)] : List (Nat × Word)),
      step { s with inputs := .rd 32 p.1 :: rest } =
        .next { s with inputs := rest, replies := .word p.2 :: s.replies }) ∧
    (∀ off, 0x64 ≤ off → off ≤ 0xFC → off % 4 = 0 →
      step { s with inputs := .rd 32 off :: rest } = .next { s with inputs := rest, replies := .word 0 :: s.replies }) ∧
    (∀ off v, off < 0x100 → off % 4 = 0 → off ∉ [0x04, 0x0C, 0x20, 0x24, 0x28, 0x2C, 0x30] →
      step { s with inputs := .wr 32 off v :: rest } = .next { s with inputs := rest }) ∧
    (∀ v, step { s with inputs := .wr 32 0x20 v :: rest } =
      .next { s with inputs := rest, opnd := { s.opnd with srcAddr := v } }) ∧
    (∀ v, step { s with inputs := .wr 32 0x24 v :: rest } =
      .next { s with inputs := rest, opnd := { s.opnd with srcLen := v } }) ∧
    (∀ v, step { s with inputs := .wr 32 0x28 v :: rest } =
      .next { s with inputs := rest, opnd := { s.opnd with dstAddr := v } }) ∧
    (∀ v, step { s with inputs := .wr 32 0x2C v :: rest } =
      .next { s with inputs := rest, opnd := { s.opnd with type := v } }) ∧
    (∀ v, step { s with inputs := .wr 32 0x30 v :: rest } =
      .next { s with inputs := rest, opnd := { s.opnd with opa := v } }) ∧
    (∀ v : Word, v.getLsbD 0 = false → step { s with inputs := .wr 32 0x04 v :: rest } = .next { s with inputs := rest }) ∧
    (∀ (width off : Nat) (v : Word), width ≠ 32 ∨ off % 4 ≠ 0 ∨ 0x100 ≤ off →
      step { s with inputs := .rd width off :: rest } = .fault .registerAccessMalformed ∧
      step { s with inputs := .wr width off v :: rest } = .fault .registerAccessMalformed)

/-- R64: a register access of another width, at an offset that is no multiple of 4, or at 0x100 or above is a model fault: for
an idle block under the name of MF4, for a busy one under some name (R268 calls it a fault too).
The delay is the model's choice (log entry 2), and so is which name a busy block's fault has (log entry 7). -/
def Obligations.MalformedRegisterAccessFaults : Prop :=
  ∀ (s : State) (width off : Nat) (v : Word) (rest : List HostOp), (width ≠ 32 ∨ off % 4 ≠ 0 ∨ 0x100 ≤ off) →
    (s.status.busy = false →
      step { s with inputs := .rd width off :: rest } = .fault .registerAccessMalformed ∧
      step { s with inputs := .wr width off v :: rest } = .fault .registerAccessMalformed) ∧
    (s.status.busy = true → 0 < s.delay →
      (∃ f, step { s with inputs := .rd width off :: rest } = .fault f) ∧
      (∃ f, step { s with inputs := .wr width off v :: rest } = .fault f))

/-- R268: while a command runs on (its delay not used up), a read of STATUS answers BUSY = 1 and a write of CTRL is taken;
every other register access and every buffer access is a model fault.
That the host may act only while the delay lasts is the model's choice (log entries 2, 12 and 18).
So is the name MF5 of a buffer access that is a fault on a second ground too, an address >= BUF_BYTES (MF3) or the read of an
unwritten byte (MF1): R240 ranks neither (log entry 7). -/
def Obligations.BusyBlockAllowsOnlyStatusAndCtrl : Prop :=
  ∀ (s : State) (d : Nat) (rest : List HostOp), s.status.busy = true → s.delay = d + 1 →
    (step { s with inputs := .rd 32 0x08 :: rest } =
      .next { s with delay := d, inputs := rest, replies := .word s.status.word :: s.replies }) ∧
    s.status.word.getLsbD 0 = true ∧
    (∀ v : Word, v.getLsbD 0 = false →
      step { s with inputs := .wr 32 0x04 v :: rest } = .next { s with delay := d, inputs := rest }) ∧
    (∀ v : Word, v.getLsbD 0 = true → ∃ t, step { s with inputs := .wr 32 0x04 v :: rest } = .next t ∧
      t.status.busy = false) ∧
    (∀ off, off < 0x100 → off % 4 = 0 → off ≠ 0x08 →
      step { s with inputs := .rd 32 off :: rest } = .fault .accessWhileBusy) ∧
    (∀ off v, off < 0x100 → off % 4 = 0 → off ≠ 0x04 →
      step { s with inputs := .wr 32 off v :: rest } = .fault .accessWhileBusy) ∧
    (∀ width off v, width ≠ 32 ∨ off % 4 ≠ 0 ∨ 0x100 ≤ off →
      (∃ f, step { s with inputs := .rd width off :: rest } = .fault f) ∧
      (∃ f, step { s with inputs := .wr width off v :: rest } = .fault f)) ∧
    (∀ a, step { s with inputs := .rb a :: rest } = .fault .accessWhileBusy) ∧
    (∀ a b, step { s with inputs := .wb a b :: rest } = .fault .accessWhileBusy)

/-- R61: BufWrite stores the byte and marks it written, and no other byte and no register changes; BufRead returns the byte; an
address >= BUF_BYTES, or a read of an unwritten byte, is a model fault. -/
def Obligations.BufferPortStoresAndReturnsBytes : Prop :=
  ∀ (s : State) (a : Nat) (b : Byte) (rest : List HostOp), s.status.busy = false →
    (a < s.params.bufBytes.toNat → ∃ t, step { s with inputs := .wb a b :: rest } = .next t ∧
      t = { s with inputs := rest, buf := t.buf } ∧ t.buf.read a = some b ∧ ∀ x, x ≠ a → t.buf.read x = s.buf.read x) ∧
    (a < s.params.bufBytes.toNat → s.buf.read a = some b → step { s with inputs := .rb a :: rest } =
      .next { s with inputs := rest, replies := .byte b :: s.replies }) ∧
    (a < s.params.bufBytes.toNat → s.buf.read a = none →
      step { s with inputs := .rb a :: rest } = .fault .hostReadUnwritten) ∧
    (s.params.bufBytes.toNat ≤ a → step { s with inputs := .wb a b :: rest } = .fault .bufferAddressOutside ∧
      step { s with inputs := .rb a :: rest } = .fault .bufferAddressOutside)

/-- No read has a side effect, and a repeated read returns the same value (R69). -/
def Obligations.HostReadsHaveNoSideEffect : Prop :=
  ∀ (s t : State) (op : HostOp) (rest : List HostOp), s.status.busy = false →
    ((∃ width off, op = .rd width off) ∨ (∃ a, op = .rb a)) → step { s with inputs := op :: rest } = .next t →
    ∃ r, t = { s with inputs := rest, replies := r :: s.replies } ∧
      step { t with inputs := op :: rest } = .next { t with inputs := rest, replies := r :: t.replies }

/-! ## Reset -/

/-- R47: the state after hardware reset of a block with parameters `p`, and the state either reset leaves, have every register at
its reset value and no live table entry; a hardware reset leaves every buffer byte unwritten, a soft reset of an idle block
changes none. -/
def Obligations.ResetStateHasResetValues : Prop :=
  (∀ p : Params, (State.resetOf p).params = p ∧ (State.resetOf p).AtReset ∧ ∀ a, (State.resetOf p).buf.read a = none) ∧
  (∀ s : State, s.hardReset.AtReset ∧ s.hardReset.params = s.params ∧ ∀ a, s.hardReset.buf.read a = none) ∧
  (∀ s : State, s.softReset.AtReset ∧ s.softReset.params = s.params ∧
    (s.status.busy = false → ∀ a, s.softReset.buf.read a = s.buf.read a))

/-- R260: hardware reset, of an idle block or of one whose command still runs on (first clause); where the running command
completes in this very step, the reset is the step after it (second clause).
That order is the model's choice (log entry 12). -/
def Obligations.HardwareResetClearsTheBlock : Prop :=
  (∀ (s : State) (rest : List HostOp), s.status.busy = false ∨ 0 < s.delay →
    ∃ t, step { s with inputs := .hardReset :: rest } = .next t ∧ t.AtReset ∧ (∀ a, t.buf.read a = none) ∧
      t.params = s.params ∧ t.inputs = rest ∧ t.replies = s.replies) ∧
  (∀ (s u : State) (rest : List HostOp), s.status.busy = true → s.delay = 0 → s.inputs = .hardReset :: rest →
    step s = .next u →
    ∃ t, step u = .next t ∧ t.AtReset ∧ (∀ a, t.buf.read a = none) ∧
      t.params = s.params ∧ t.inputs = rest ∧ t.replies = s.replies)

/-- R262: a soft reset sets every register to its reset value; with BUSY = 0, or with a command running that writes no buffer
byte, it changes no buffer byte and no written mark (R270 says what it does to the output range of the other two).
The delay is the model's choice (log entries 2 and 12). -/
def Obligations.SoftResetKeepsTheBuffer : Prop :=
  ∀ (s : State) (v : Word) (rest : List HostOp), s.status.busy = false ∨ 0 < s.delay → v.getLsbD 0 = true →
    ∃ t, step { s with inputs := .wr 32 0x04 v :: rest } = .next t ∧ t.AtReset ∧
      (s.status.busy = false ∨ (s.cmdWord ≠ 0x21 ∧ s.cmdWord ≠ 0x31) → ∀ a, t.buf.read a = s.buf.read a) ∧
      t.params = s.params ∧ t.inputs = rest ∧ t.replies = s.replies

/-- R270: a soft reset while a command runs on aborts it. The output range of a CHUNK_BUILD or CONT_SERIALIZE whose checks
would all have passed becomes unwritten; no other byte changes.
The delay is the model's choice (log entries 2 and 12). -/
def Obligations.SoftResetAbortsTheRunningCommand : Prop :=
  ∀ (s : State) (v : Word) (rest : List HostOp), s.status.busy = true → 0 < s.delay → v.getLsbD 0 = true →
    ∃ t, step { s with inputs := .wr 32 0x04 v :: rest } = .next t ∧ t.AtReset ∧
      t.params = s.params ∧ t.inputs = rest ∧ t.replies = s.replies ∧
      (s.cmdWord = 0x21 → typeOk s.ty = true → s.InRange s.src s.len → s.InRange s.dst (12 + s.len) →
        ¬ Overlaps s.src s.len s.dst (12 + s.len) →
        ∀ a, t.buf.read a = if s.dst ≤ a ∧ a < s.dst + (12 + s.len) then none else s.buf.read a) ∧
      (s.cmdWord = 0x31 → s.status.cvalid = true → s.InRange s.dst (imageLen s.ct) →
        (∀ e ∈ s.ct, ¬ Overlaps s.dst (imageLen s.ct) e.addr.toNat e.len.toNat) →
        ∀ a, t.buf.read a = if s.dst ≤ a ∧ a < s.dst + imageLen s.ct then none else s.buf.read a) ∧
      (¬ (s.cmdWord = 0x21 ∧ typeOk s.ty = true ∧ s.InRange s.src s.len ∧ s.InRange s.dst (12 + s.len) ∧
          ¬ Overlaps s.src s.len s.dst (12 + s.len)) →
        ¬ (s.cmdWord = 0x31 ∧ s.status.cvalid = true ∧ s.InRange s.dst (imageLen s.ct) ∧
          ∀ e ∈ s.ct, ¬ Overlaps s.dst (imageLen s.ct) e.addr.toNat e.len.toNat) →
        ∀ a, t.buf.read a = s.buf.read a)

/-- R261: the first host read of STATUS after hardware reset returns 0x00000000.
That the reset input is taken between steps is the model's choice (log entry 12). -/
def Obligations.FirstStatusReadAfterResetIsZero : Prop :=
  ∀ (s : State) (rest : List HostOp), s.status.busy = false ∨ 0 < s.delay →
    ∃ t, Sys2Proof.core.run 2 { s with inputs := .hardReset :: .rd 32 0x08 :: rest } = .next t ∧
      t.replies = .word 0x00000000 :: s.replies ∧ t.inputs = rest

/-! ## The CRC unit -/

/-- R112: CRC_INIT cannot fail; after it CRC_VALUE reads 0. -/
def Obligations.CrcInitSetsTheInitialValue : Prop :=
  (∀ w : Word, decode w = .ok .crcInit ↔ w = 0x00000001) ∧
  ∀ s : State, ∃ t, exec .crcInit s = .next t ∧
    t = { s with crcState := 0xFFFFFFFF, status := { s.status with busy := false } } ∧ t.readReg .crcValue = 0x00000000

/-- R114: CRC_UPDATE folds the range into CRC_STATE; a range past the buffer raises RangeError and leaves CRC_STATE; an
unwritten byte in the range is a model fault. -/
def Obligations.CrcUpdateFoldsTheRange : Prop :=
  (∀ w : Word, decode w = .ok .crcUpdate ↔ w = 0x00000002) ∧
  ∀ s : State,
    (∀ d : List Byte, s.InRange s.src s.len → d.length = s.len → s.Holds s.src d →
      exec .crcUpdate s = .next { s with crcState := crcFold s.crcState d, status := { s.status with busy := false } }) ∧
    (¬ s.InRange s.src s.len → exec .crcUpdate s =
      .next (s.failed { code := .rangeError, field := .operand, offset := 0x20, index := 0 })) ∧
    (s.InRange s.src s.len → s.Unwritten s.src s.len → exec .crcUpdate s = .fault .commandReadUnwritten)

/-- R116: only OP[7:0] is used, and no buffer byte is touched. -/
def Obligations.CrcUpdateByteFeedsTheLowByte : Prop :=
  (∀ w : Word, decode w = .ok .crcUpdateByte ↔ w = 0x00000003) ∧
  ∀ s : State, exec .crcUpdateByte s = .next { s with
    crcState := crcStep s.crcState (s.op.extractLsb' 0 8), status := { s.status with busy := false } }

/-- R118: CRC_COMPUTE leaves CRC_VALUE = CRC32 of the range. -/
def Obligations.CrcComputeGivesTheCrcOfTheRange : Prop :=
  (∀ w : Word, decode w = .ok .crcCompute ↔ w = 0x00000004) ∧
  ∀ s : State,
    (∀ d : List Byte, s.InRange s.src s.len → d.length = s.len → s.Holds s.src d →
      ∃ t, exec .crcCompute s = .next t ∧
        t = { s with crcState := crcFold 0xFFFFFFFF d, status := { s.status with busy := false } } ∧
        t.readReg .crcValue = crc32 d) ∧
    (¬ s.InRange s.src s.len → exec .crcCompute s =
      .next (s.failed { code := .rangeError, field := .operand, offset := 0x20, index := 0 })) ∧
    (s.InRange s.src s.len → s.Unwritten s.src s.len → exec .crcCompute s = .fault .commandReadUnwritten)

/-- R113(a): feeding a sequence in pieces gives the same state as feeding it whole. Said of the commands: two CRC_UPDATEs on
neighbouring ranges leave the CRC_STATE one CRC_UPDATE on their union leaves. -/
def Obligations.CrcUpdatesSplit : Prop :=
  ∀ (s t u : State) (m n : Nat), s.len = m + n → s.InRange s.src s.len → ¬ s.Unwritten s.src s.len →
    exec .crcUpdate { s with latch := { s.latch with srcLen := BitVec.ofNat 32 m } } = .next t →
    exec .crcUpdate { t with latch := { s.latch with
      srcAddr := BitVec.ofNat 32 (s.src + m), srcLen := BitVec.ofNat 32 n } } = .next u →
    ∃ w, exec .crcUpdate s = .next w ∧ w.crcState = u.crcState

/-- R111: the table is T[n] = CrcStep(0, n), and the table form equals the bitwise form for every c and b. -/
def Obligations.CrcTableFormAgrees : Prop :=
  (∀ n, n < 256 → crcTable[n]? = some (crcStep 0 (BitVec.ofNat 8 n))) ∧
  (∀ (c : Word) (b : Byte), crcStepByTable c b = crcStep c b)

/-- R113(e): flipping any single bit of a sequence changes its CRC32. -/
def Obligations.SingleBitFlipChangesTheCrc : Prop :=
  ∀ (bs : List Byte) (k j : Nat), k < bs.length → j < 8 → crc32 (flipBit bs k j) ≠ crc32 bs

/-- The check value of R110, CRC32("123456789") = 0xCBF43926, and the CRC of the empty sequence (R113(b)). -/
def Obligations.CrcCheckValues : Prop :=
  crc32 [0x31, 0x32, 0x33, 0x34, 0x35, 0x36, 0x37, 0x38, 0x39] = 0xCBF43926 ∧ crc32 [] = 0x00000000

/-! ## The type code unit -/

/-- R137: the flag word of a type, each predicate counted as 1 or 0; its bits by the case of the type's bytes, the bits above
bit 4 being 0; bit 4 is bit 2; and all 16 combinations of bits 0 to 3 occur among types of four letters. -/
def Obligations.TypeFlagsBits : Prop :=
  (∀ a b c d : Bool, ∃ t : Word, typeOk t = true ∧ (typeFlagsOf t).getLsbD 0 = a ∧ (typeFlagsOf t).getLsbD 1 = b ∧
    (typeFlagsOf t).getLsbD 2 = c ∧ (typeFlagsOf t).getLsbD 3 = d) ∧
  ∀ t : Word,
    (typeFlagsOf t).toNat = (isCritical t).toNat * 0x01 + (isPublic t).toNat * 0x02 + (isReservedBitValid t).toNat * 0x04 +
      (isSafeToCopy t).toNat * 0x08 + (isValidType t).toNat * 0x10 ∧
    typeFlagsOf t &&& 0x10 = (typeFlagsOf t &&& 0x04) * 4 ∧
    ((typeFlagsOf t).getLsbD 0 = true ↔ 0x41 ≤ (t.extractLsb' 24 8).toNat ∧ (t.extractLsb' 24 8).toNat ≤ 0x5A) ∧
    ((typeFlagsOf t).getLsbD 1 = true ↔ 0x41 ≤ (t.extractLsb' 16 8).toNat ∧ (t.extractLsb' 16 8).toNat ≤ 0x5A) ∧
    ((typeFlagsOf t).getLsbD 2 = true ↔ 0x41 ≤ (t.extractLsb' 8 8).toNat ∧ (t.extractLsb' 8 8).toNat ≤ 0x5A) ∧
    ((typeFlagsOf t).getLsbD 3 = true ↔ 0x61 ≤ (t.extractLsb' 0 8).toNat ∧ (t.extractLsb' 0 8).toNat ≤ 0x7A) ∧
    (typeFlagsOf t).getLsbD 4 = (typeFlagsOf t).getLsbD 2 ∧
    (∀ k, 5 ≤ k → (typeFlagsOf t).getLsbD k = false)

/-- R135: TYPE_PARSE reports the flags of a type of four letters, and the position of the first byte that is no letter. -/
def Obligations.TypeParseReportsFlagsOrFirstBadByte : Prop :=
  (∀ w : Word, decode w = .ok .typeParse ↔ w = 0x00000010) ∧
  ∀ s : State,
    ((∀ k, k < 4 → isAlpha (typeByte s.ty k) = true) → exec .typeParse s = .next { s with
      typeFlags := typeFlagsOf s.ty, status := { s.status with busy := false } }) ∧
    (∀ k, k < 4 → isAlpha (typeByte s.ty k) = false → (∀ j, j < k → isAlpha (typeByte s.ty j) = true) →
      exec .typeParse s = .next (s.failed
        { code := .invalidTypeBytes, field := .type, offset := BitVec.ofNat 32 k, index := 0 }))

/-- R136: the checks of TYPE_PARSE_TEXT in their order, and its result. `t` is the packed code of the four bytes at SRC. -/
def Obligations.TypeParseTextLoadsTypeOrFails : Prop :=
  (∀ w : Word, decode w = .ok .typeParseText ↔ w = 0x00000011) ∧
  ∀ s : State,
    (¬ s.InRange s.src s.len → exec .typeParseText s =
      .next (s.failed { code := .rangeError, field := .operand, offset := 0x20, index := 0 })) ∧
    (s.InRange s.src s.len → s.len ≠ 4 → exec .typeParseText s =
      .next (s.failed { code := .wrongLength, field := .type, offset := s.latch.srcAddr, index := 0 })) ∧
    (s.InRange s.src s.len → s.len = 4 → s.Unwritten s.src 4 → exec .typeParseText s = .fault .commandReadUnwritten) ∧
    (∀ t : Word, s.InRange s.src s.len → s.len = 4 → s.Holds s.src (be32Bytes t) →
      ((∀ k, k < 4 → isAlpha (typeByte t k) = true) → exec .typeParseText s = .next { s with
        opnd := { s.opnd with type := t }, typeFlags := typeFlagsOf t, status := { s.status with busy := false } }) ∧
      (∀ k, k < 4 → isAlpha (typeByte t k) = false → (∀ j, j < k → isAlpha (typeByte t j) = true) →
        exec .typeParseText s = .next (s.failed
          { code := .invalidTypeBytes, field := .type, offset := BitVec.ofNat 32 (s.src + k), index := 0 })))

/-! ## The chunk unit -/

/-- R152: CHUNK_PARSE of a well-formed frame reports its fields. -/
def Obligations.ChunkParseAcceptsAWellFormedFrame : Prop :=
  ∀ (s : State) (c : Chunk), c.ok → s.InRange s.src s.len → s.len = 12 + c.data.length → s.Holds s.src c.frame →
    exec .chunkParse s = .next { s with
      res := { s.res with
        len := BitVec.ofNat 32 c.data.length
        type := c.type
        crc := c.crc
        dataAddr := BitVec.ofNat 32 (s.src + 8)
        outLen := s.latch.srcLen }
      typeFlags := typeFlagsOf c.type
      status := { s.status with busy := false } }

/-- R150 and R152: the errors of CHUNK_PARSE in their order of checking; the whole range is read first, so an unwritten byte in
it faults before any format check. `b` is the bytes of the range, `L` its length field and `t` its type field. -/
def Obligations.ChunkParseRejectsInReadOrder : Prop :=
  ∀ s : State,
    (¬ s.InRange s.src s.len → exec .chunkParse s =
      .next (s.failed { code := .rangeError, field := .operand, offset := 0x20, index := 0 })) ∧
    (s.InRange s.src s.len → s.Unwritten s.src s.len → exec .chunkParse s = .fault .commandReadUnwritten) ∧
    (∀ b : List Byte, s.InRange s.src s.len → b.length = s.len → s.Holds s.src b →
      (b.length < 4 → exec .chunkParse s =
        .next (s.failed { code := .truncatedData, field := .length, offset := s.latch.srcAddr, index := 0 })) ∧
      (4 ≤ b.length → b.length < 8 → exec .chunkParse s =
        .next (s.failed { code := .truncatedData, field := .type, offset := BitVec.ofNat 32 (s.src + 4), index := 0 })) ∧
      (∀ (len t : Word) (x : List Byte), b = be32Bytes len ++ be32Bytes t ++ x →
        (∀ k, k < 4 → isAlpha (typeByte t k) = false → (∀ j, j < k → isAlpha (typeByte t j) = true) →
          exec .chunkParse s = .next (s.failed
            { code := .invalidTypeBytes, field := .type, offset := BitVec.ofNat 32 (s.src + 4 + k), index := 0 })) ∧
        (typeOk t = true → x.length < len.toNat → exec .chunkParse s = .next (s.failed
          { code := .truncatedData, field := .data, offset := BitVec.ofNat 32 (s.src + 8), index := 0 })) ∧
        (typeOk t = true → len.toNat ≤ x.length → x.length < len.toNat + 4 → exec .chunkParse s = .next (s.failed
          { code := .truncatedData, field := .crc, offset := BitVec.ofNat 32 (s.src + 8 + len.toNat), index := 0 })) ∧
        (typeOk t = true → len.toNat + 4 < x.length → exec .chunkParse s = .next (s.failed
          { code := .trailingBytes, field := .trailing, offset := BitVec.ofNat 32 (s.src + 12 + len.toNat), index := 0 })) ∧
        (∀ (d : List Byte) (stored : Word), typeOk t = true → d.length = len.toNat → x = d ++ be32Bytes stored →
          stored ≠ crc32 (be32Bytes t ++ d) → exec .chunkParse s = .next (s.failed
            { code := .checksumMismatch, field := .crc, offset := BitVec.ofNat 32 (s.src + 8 + len.toNat), index := 0 }))))

/-- R156: CHUNK_BUILD with every check passed writes the frame at DST and reports it; every byte outside the frame reads as
before, and nothing else changes. -/
def Obligations.ChunkBuildWritesTheFrame : Prop :=
  ∀ (s : State) (d : List Byte), typeOk s.ty = true → s.InRange s.src s.len → s.InRange s.dst (12 + s.len) →
    ¬ Overlaps s.src s.len s.dst (12 + s.len) → d.length = s.len → s.Holds s.src d →
    ∃ t, exec .chunkBuild s = .next t ∧
      t = { s with
        buf := t.buf
        res := { s.res with
          len := s.latch.srcLen
          type := s.ty
          crc := crc32 (be32Bytes s.ty ++ d)
          dataAddr := BitVec.ofNat 32 (s.dst + 8)
          outLen := BitVec.ofNat 32 (12 + s.len) }
        typeFlags := typeFlagsOf s.ty
        status := { s.status with busy := false } } ∧
      t.Holds s.dst (be32Bytes s.latch.srcLen ++ be32Bytes s.ty ++ d ++ be32Bytes (crc32 (be32Bytes s.ty ++ d))) ∧
      ∀ a, a < s.dst ∨ s.dst + (12 + s.len) ≤ a → t.buf.read a = s.buf.read a

/-- R156: the errors of CHUNK_BUILD in their order of checking, and the fault on an unwritten source byte. -/
def Obligations.ChunkBuildRejectsInOrder : Prop :=
  ∀ s : State,
    (∀ k, k < 4 → isAlpha (typeByte s.ty k) = false → (∀ j, j < k → isAlpha (typeByte s.ty j) = true) →
      exec .chunkBuild s = .next (s.failed
        { code := .invalidTypeBytes, field := .type, offset := BitVec.ofNat 32 k, index := 0 })) ∧
    (typeOk s.ty = true → ¬ s.InRange s.src s.len → exec .chunkBuild s =
      .next (s.failed { code := .rangeError, field := .operand, offset := 0x20, index := 0 })) ∧
    (typeOk s.ty = true → s.InRange s.src s.len → ¬ s.InRange s.dst (12 + s.len) → exec .chunkBuild s =
      .next (s.failed { code := .rangeError, field := .operand, offset := 0x28, index := 0 })) ∧
    (typeOk s.ty = true → s.InRange s.src s.len → s.InRange s.dst (12 + s.len) →
      (0 < s.len ∧ s.src < s.dst + (12 + s.len) ∧ s.dst < s.src + s.len) → exec .chunkBuild s =
      .next (s.failed { code := .overlapError, field := .operand, offset := 0x28, index := 0 })) ∧
    (typeOk s.ty = true → s.InRange s.src s.len → s.InRange s.dst (12 + s.len) →
      ¬ Overlaps s.src s.len s.dst (12 + s.len) → s.Unwritten s.src s.len →
      exec .chunkBuild s = .fault .commandReadUnwritten)

/-- R153: a frame CHUNK_BUILD wrote parses back to the chunk it was built from, as long as no byte of it is written in
between; and a CHUNK_PARSE that succeeds means the range is the frame of what it reports. -/
def Obligations.ChunkRoundTrip : Prop :=
  (∀ (s t u : State) (d : List Byte), exec .chunkBuild s = .next t → t.err.code = .none → d.length = s.len →
    s.Holds s.src d → u.params = s.params → u.latch.srcAddr = s.latch.dstAddr → u.len = 12 + s.len →
    (∀ a, s.dst ≤ a → a < s.dst + (12 + s.len) → u.buf.read a = t.buf.read a) →
    exec .chunkParse u = .next { u with
      res := { u.res with
        len := s.latch.srcLen
        type := s.ty
        crc := crc32 (be32Bytes s.ty ++ d)
        dataAddr := BitVec.ofNat 32 (s.dst + 8)
        outLen := BitVec.ofNat 32 (12 + s.len) }
      typeFlags := typeFlagsOf s.ty
      status := { u.status with busy := false } } ∧
    u.Holds (s.dst + 8) d) ∧
  (∀ s t : State, exec .chunkParse s = .next t → t.err.code = .none →
    ∃ d : List Byte, d.length = t.res.len.toNat ∧ s.len = 12 + d.length ∧ t.res.dataAddr.toNat = s.src + 8 ∧
      s.Holds (s.src + 8) d ∧ s.Holds s.src (frameBytes t.res.len t.res.type d t.res.crc))

/-- R154: what CHUNK_PARSE answers on a well-formed frame with exactly one bit flipped, bit `j` of its byte `p`. In (d) and (e)
`m` is the number of the flipped bit of the length L. -/
def Obligations.SingleBitCorruptionIsRejected : Prop :=
  ∀ (s : State) (c : Chunk) (p j : Nat), c.ok → p < 12 + c.data.length → j < 8 → s.InRange s.src s.len →
    s.len = 12 + c.data.length → s.Holds s.src (flipBit c.frame p j) →
    (8 + c.data.length ≤ p → exec .chunkParse s = .next (s.failed
        { code := .checksumMismatch, field := .crc, offset := BitVec.ofNat 32 (s.src + 8 + c.data.length), index := 0 })) ∧
    (8 ≤ p → p < 8 + c.data.length → exec .chunkParse s = .next (s.failed
        { code := .checksumMismatch, field := .crc, offset := BitVec.ofNat 32 (s.src + 8 + c.data.length), index := 0 })) ∧
    (∀ k, k < 4 → p = 4 + k →
      (isAlpha (typeByte c.type k ^^^ ((1 : Byte) <<< j)) = true → exec .chunkParse s = .next (s.failed
        { code := .checksumMismatch, field := .crc,
          offset := BitVec.ofNat 32 (s.src + 8 + c.data.length), index := 0 })) ∧
      (j = 5 → isAlpha (typeByte c.type k ^^^ ((1 : Byte) <<< j)) = true) ∧
      (isAlpha (typeByte c.type k ^^^ ((1 : Byte) <<< j)) = false → exec .chunkParse s = .next (s.failed
        { code := .invalidTypeBytes, field := .type, offset := BitVec.ofNat 32 (s.src + 4 + k), index := 0 }))) ∧
    (∀ m, p < 4 → m = 8 * (3 - p) + j → c.data.length.testBit m = false →
      (m ≤ 2 → exec .chunkParse s = .next (s.failed
          { code := .truncatedData, field := .crc,
            offset := BitVec.ofNat 32 (s.src + 8 + (c.data.length + 2 ^ m)), index := 0 })) ∧
      (3 ≤ m → exec .chunkParse s = .next (s.failed
          { code := .truncatedData, field := .data, offset := BitVec.ofNat 32 (s.src + 8), index := 0 }))) ∧
    (∀ m, p < 4 → m = 8 * (3 - p) + j → c.data.length.testBit m = true →
      exec .chunkParse s = .next (s.failed
          { code := .trailingBytes, field := .trailing,
            offset := BitVec.ofNat 32 (s.src + 12 + (c.data.length - 2 ^ m)), index := 0 }))

/-! ## The container unit -/

/-- R172: CONT_PARSE of the signature and whole well-formed frames, no more of them than the table holds, loads the table. -/
def Obligations.ContParseLoadsTheTable : Prop :=
  ∀ (s : State) (cs : List Chunk), (∀ c ∈ cs, c.ok) → cs.length ≤ s.params.maxChunks.toNat → s.InRange s.src s.len →
    s.len = 8 + (framesOf cs).length → s.Holds s.src ([0x89, 0x50, 0x4E, 0x47, 0x0D, 0x0A, 0x1A, 0x0A] ++ framesOf cs) →
    exec .contParse s = .next { s with
      ct := tableOf (s.src + 8) cs
      res := { s.res with outLen := s.latch.srcLen }
      status := { s.status with busy := false, cvalid := true } }

/-- A CONT_PARSE that succeeds means the range is the signature and whole well-formed frames, and the table lists exactly these
(R88, R172). -/
def Obligations.ContParseAcceptsOnlyContainers : Prop :=
  ∀ s t : State, exec .contParse s = .next t → t.err.code = .none →
    ∃ cs : List Chunk, (∀ c ∈ cs, c.ok) ∧ cs.length ≤ s.params.maxChunks.toNat ∧ s.len = 8 + (framesOf cs).length ∧
      s.Holds s.src ([0x89, 0x50, 0x4E, 0x47, 0x0D, 0x0A, 0x1A, 0x0A] ++ framesOf cs) ∧
      t.ct = tableOf (s.src + 8) cs ∧ t.status.cvalid = true

/-- R172: the errors of CONT_PARSE in their order of checking. `cs` are the whole well-formed frames before the fault, `rest`
the bytes after them; the error's index is the number of `cs`. Every failure leaves no container. -/
def Obligations.ContParseRejectsInWireOrder : Prop :=
  ∀ s : State,
    (¬ s.InRange s.src s.len → exec .contParse s =
      .next (s.parseFailed { code := .rangeError, field := .operand, offset := 0x20, index := 0 })) ∧
    (s.InRange s.src s.len → s.Unwritten s.src s.len → exec .contParse s = .fault .commandReadUnwritten) ∧
    (∀ b : List Byte, s.InRange s.src s.len → b.length = s.len → s.Holds s.src b →
      (b.length < 8 ∨ b.take 8 ≠ [0x89, 0x50, 0x4E, 0x47, 0x0D, 0x0A, 0x1A, 0x0A] → exec .contParse s =
        .next (s.parseFailed { code := .badSignature, field := .signature, offset := s.latch.srcAddr, index := 0 })) ∧
      (∀ (cs : List Chunk) (rest : List Byte) (pos : Nat), (∀ c ∈ cs, c.ok) → cs.length ≤ s.params.maxChunks.toNat →
        b = [0x89, 0x50, 0x4E, 0x47, 0x0D, 0x0A, 0x1A, 0x0A] ++ framesOf cs ++ rest →
        pos = s.src + 8 + (framesOf cs).length →
        (0 < rest.length → rest.length < 4 → exec .contParse s = .next (s.parseFailed
            { code := .incompleteChunk,
              field := .length, offset := BitVec.ofNat 32 pos, index := BitVec.ofNat 32 cs.length })) ∧
        (4 ≤ rest.length → rest.length < 8 → exec .contParse s = .next (s.parseFailed
            { code := .incompleteChunk,
              field := .type, offset := BitVec.ofNat 32 (pos + 4), index := BitVec.ofNat 32 cs.length })) ∧
        (∀ (len t : Word) (x : List Byte), rest = be32Bytes len ++ be32Bytes t ++ x →
          (x.length < len.toNat → exec .contParse s = .next (s.parseFailed
              { code := .incompleteChunk,
                field := .data, offset := BitVec.ofNat 32 (pos + 8), index := BitVec.ofNat 32 cs.length })) ∧
          (len.toNat ≤ x.length → x.length < len.toNat + 4 → exec .contParse s = .next (s.parseFailed
            { code := .incompleteChunk, field := .crc, offset := BitVec.ofNat 32 (pos + 8 + len.toNat),
              index := BitVec.ofNat 32 cs.length })) ∧
          (len.toNat + 4 ≤ x.length → ∀ k, k < 4 → isAlpha (typeByte t k) = false →
            (∀ j, j < k → isAlpha (typeByte t j) = true) → exec .contParse s = .next (s.parseFailed
              { code := .invalidTypeBytes, field := .type, offset := BitVec.ofNat 32 (pos + 4 + k),
                index := BitVec.ofNat 32 cs.length })) ∧
          (∀ (d more : List Byte) (stored : Word), d.length = len.toNat → x = d ++ be32Bytes stored ++ more →
            typeOk t = true →
            (stored ≠ crc32 (be32Bytes t ++ d) → exec .contParse s = .next (s.parseFailed
              { code := .checksumMismatch, field := .crc, offset := BitVec.ofNat 32 (pos + 8 + len.toNat),
                index := BitVec.ofNat 32 cs.length })) ∧
            (stored = crc32 (be32Bytes t ++ d) → cs.length = s.params.maxChunks.toNat →
              exec .contParse s = .next (s.parseFailed
                  { code := .capacityExceeded, field := .operand,
                    offset := BitVec.ofNat 32 pos, index := BitVec.ofNat 32 cs.length }))))))

/-- R174: CONT_SERIALIZE with every check passed writes the image at DST: the signature and, in table order, the frame of each
descriptor with the data its region holds now and its stored crc. Every byte outside the image reads as before, and nothing
else but R_OUT_LEN changes. -/
def Obligations.ContSerializeWritesTheImage : Prop :=
  ∀ (s : State) (ds : List (List Byte)), s.status.cvalid = true →
    List.Forall₂ (fun e d => d.length = e.len.toNat ∧ s.Holds e.addr.toNat d) s.ct ds →
    s.InRange s.dst (imageLen s.ct) →
    (∀ e ∈ s.ct, ¬ Overlaps s.dst (imageLen s.ct) e.addr.toNat e.len.toNat) →
    ∃ t, exec .contSerialize s = .next t ∧
      t = { s with
        buf := t.buf
        res := { s.res with outLen := BitVec.ofNat 32 (imageLen s.ct) }
        status := { s.status with busy := false } } ∧
      (framesWith s.ct ds).length + 8 = imageLen s.ct ∧
      t.Holds s.dst ([0x89, 0x50, 0x4E, 0x47, 0x0D, 0x0A, 0x1A, 0x0A] ++ framesWith s.ct ds) ∧
      ∀ a, a < s.dst ∨ s.dst + imageLen s.ct ≤ a → t.buf.read a = s.buf.read a

/-- R174: the errors of CONT_SERIALIZE in their order of checking, and the fault on an unwritten byte of a region. -/
def Obligations.ContSerializeRejectsInOrder : Prop :=
  ∀ s : State,
    (s.status.cvalid = false → exec .contSerialize s =
      .next (s.failed { code := .noContainer, field := .operand, offset := 0, index := 0 })) ∧
    (s.status.cvalid = true → ¬ s.InRange s.dst (imageLen s.ct) → exec .contSerialize s =
      .next (s.failed { code := .rangeError, field := .operand, offset := 0x28, index := 0 })) ∧
    (s.status.cvalid = true → s.InRange s.dst (imageLen s.ct) →
      (∃ e ∈ s.ct, Overlaps s.dst (imageLen s.ct) e.addr.toNat e.len.toNat) → exec .contSerialize s =
      .next (s.failed { code := .overlapError, field := .operand, offset := 0x28, index := 0 })) ∧
    (s.status.cvalid = true → s.InRange s.dst (imageLen s.ct) →
      (∀ e ∈ s.ct, ¬ Overlaps s.dst (imageLen s.ct) e.addr.toNat e.len.toNat) →
      (∃ e ∈ s.ct, s.Unwritten e.addr.toNat e.len.toNat) → exec .contSerialize s = .fault .commandReadUnwritten)

/-- R176: CONT_APPEND adds the descriptor of the new chunk at the end of the table and reports it; its errors in their order. -/
def Obligations.ContAppendAddsAtTheEnd : Prop :=
  (∀ w : Word, decode w = .ok .contAppend ↔ w = 0x00000032) ∧
  ∀ s : State,
    (∀ d : List Byte, s.status.cvalid = true → typeOk s.ty = true → s.InRange s.src s.len →
      s.ct.length ≠ s.params.maxChunks.toNat → d.length = s.len → s.Holds s.src d →
      exec .contAppend s = .next { s with
        ct := s.ct ++ [{ type := s.ty, len := s.latch.srcLen, crc := crc32 (be32Bytes s.ty ++ d), addr := s.latch.srcAddr }]
        res := { s.res with
          len := s.latch.srcLen
          type := s.ty
          crc := crc32 (be32Bytes s.ty ++ d)
          dataAddr := s.latch.srcAddr
          index := BitVec.ofNat 32 s.ct.length }
        typeFlags := typeFlagsOf s.ty
        status := { s.status with busy := false } }) ∧
    (s.status.cvalid = false → exec .contAppend s =
      .next (s.failed { code := .noContainer, field := .operand, offset := 0, index := 0 })) ∧
    (∀ k, s.status.cvalid = true → k < 4 → isAlpha (typeByte s.ty k) = false →
      (∀ j, j < k → isAlpha (typeByte s.ty j) = true) → exec .contAppend s = .next (s.failed
        { code := .invalidTypeBytes, field := .type, offset := BitVec.ofNat 32 k, index := 0 })) ∧
    (s.status.cvalid = true → typeOk s.ty = true → ¬ s.InRange s.src s.len → exec .contAppend s =
      .next (s.failed { code := .rangeError, field := .operand, offset := 0x20, index := 0 })) ∧
    (s.status.cvalid = true → typeOk s.ty = true → s.InRange s.src s.len → s.ct.length = s.params.maxChunks.toNat →
      exec .contAppend s = .next (s.failed { code := .capacityExceeded, field := .operand, offset := 0, index := 0 })) ∧
    (s.status.cvalid = true → typeOk s.ty = true → s.InRange s.src s.len → s.ct.length ≠ s.params.maxChunks.toNat →
      s.Unwritten s.src s.len → exec .contAppend s = .fault .commandReadUnwritten)

/-- R178: CONT_FIND sets FOUND and reports the first descriptor whose type equals TYPE; no match is no error and changes no
result register. -/
def Obligations.ContFindReportsTheFirstMatch : Prop :=
  (∀ w : Word, decode w = .ok .contFind ↔ w = 0x00000033) ∧
  ∀ s : State,
    (∀ (j : Nat) (e : Descriptor), s.status.cvalid = true → s.ct[j]? = some e → e.type = s.ty →
      (∀ (k : Nat) (x : Descriptor), k < j → s.ct[k]? = some x → x.type ≠ s.ty) →
      exec .contFind s = .next { s with
        res := { s.res with
          len := e.len, type := e.type, crc := e.crc, dataAddr := e.addr, index := BitVec.ofNat 32 j }
        typeFlags := typeFlagsOf e.type
        status := { s.status with busy := false, found := true } }) ∧
    (s.status.cvalid = true → (∀ e ∈ s.ct, e.type ≠ s.ty) →
      exec .contFind s = .next { s with status := { s.status with busy := false } }) ∧
    (s.status.cvalid = false → exec .contFind s =
      .next (s.failed { code := .noContainer, field := .operand, offset := 0, index := 0 }))

/-- R180: CONT_REMOVE removes the first descriptor whose type equals TYPE, keeps the order of the rest and reports it; with no
match it raises ChunkNotFound. -/
def Obligations.ContRemoveTakesTheFirstMatch : Prop :=
  (∀ w : Word, decode w = .ok .contRemove ↔ w = 0x00000034) ∧
  ∀ s : State,
    (∀ (x y : List Descriptor) (e : Descriptor), s.status.cvalid = true → s.ct = x ++ e :: y → e.type = s.ty →
      (∀ z ∈ x, z.type ≠ s.ty) →
      exec .contRemove s = .next { s with
        ct := x ++ y
        res := { s.res with
          len := e.len, type := e.type, crc := e.crc, dataAddr := e.addr, index := BitVec.ofNat 32 x.length }
        typeFlags := typeFlagsOf e.type
        status := { s.status with busy := false } }) ∧
    (s.status.cvalid = true → (∀ e ∈ s.ct, e.type ≠ s.ty) → exec .contRemove s =
      .next (s.failed { code := .chunkNotFound, field := .operand, offset := 0x2C, index := 0 })) ∧
    (s.status.cvalid = false → exec .contRemove s =
      .next (s.failed { code := .noContainer, field := .operand, offset := 0, index := 0 }))

/-- R182: CONT_ENTRY reports the descriptor at index OPA, all 32 bits of it; past the table it raises BadIndex. -/
def Obligations.ContEntryReportsTheIndexedDescriptor : Prop :=
  (∀ w : Word, decode w = .ok .contEntry ↔ w = 0x00000035) ∧
  ∀ s : State,
    (∀ e : Descriptor, s.status.cvalid = true → s.ct[s.op.toNat]? = some e →
      exec .contEntry s = .next { s with
        res := { s.res with len := e.len, type := e.type, crc := e.crc, dataAddr := e.addr, index := s.op }
        typeFlags := typeFlagsOf e.type
        status := { s.status with busy := false } }) ∧
    (s.status.cvalid = true → s.ct.length ≤ s.op.toNat → exec .contEntry s =
      .next (s.failed { code := .badIndex, field := .operand, offset := 0x30, index := 0 })) ∧
    (s.status.cvalid = false → exec .contEntry s =
      .next (s.failed { code := .noContainer, field := .operand, offset := 0, index := 0 }))

/-- R185: the container commands but CONT_PARSE succeed or leave table, CT_COUNT and CVALID as they were; CONT_PARSE succeeds
or leaves the empty invalid state. -/
def Obligations.ContainerCommandsAreAllOrNothing : Prop :=
  ∀ (i : Instr) (s t : State), s.err.code = .none → exec i s = .next t → t.err.code ≠ .none →
    (i ∈ [.contAppend, .contRemove, .contFind, .contEntry, .contSerialize] →
      t.ct = s.ct ∧ t.status.cvalid = s.status.cvalid) ∧
    (i = .contParse → t.ct = [] ∧ t.status.cvalid = false)

/-- R184: a container whose descriptors keep the source's Chunk invariant, serialized and parsed again before any write to the
image, is the same container at its new place, with the same data bytes; and a second serialization to another place writes
the same bytes. -/
def Obligations.ContainerRoundTrip : Prop :=
  ∀ (s t : State) (cs : List Chunk), s.Inv → List.Forall₂ s.RefersTo s.ct cs →
    exec .contSerialize s = .next t → t.err.code = .none →
    (∀ u : State, u.params = s.params → u.latch.srcAddr = s.latch.dstAddr → u.latch.srcLen = t.res.outLen →
      (∀ a, s.dst ≤ a → a < s.dst + imageLen s.ct → u.buf.read a = t.buf.read a) →
      exec .contParse u = .next { u with
        ct := tableOf (s.dst + 8) cs
        res := { u.res with outLen := t.res.outLen }
        status := { u.status with busy := false, cvalid := true } } ∧
      List.Forall₂ u.RefersTo (tableOf (s.dst + 8) cs) cs) ∧
    (∀ v w : State, v.buf = t.buf → v.ct = s.ct → exec .contSerialize v = .next w → w.err.code = .none →
      ∀ k, k < imageLen s.ct → w.buf.read (v.dst + k) = t.buf.read (s.dst + k))

/-- R184's last sentence and R274: where a descriptor's stored crc no longer fits its data, the reparse of the image raises
ChecksumMismatch at that chunk's index. -/
def Obligations.ReparseOfABrokenChunkMismatches : Prop :=
  ∀ (s t u : State) (pre post : List Descriptor) (e : Descriptor) (cs : List Chunk) (d : List Byte), s.Inv →
    s.ct = pre ++ e :: post → List.Forall₂ s.RefersTo pre cs → d.length = e.len.toNat → s.Holds e.addr.toNat d →
    e.crc ≠ crc32 (be32Bytes e.type ++ d) → exec .contSerialize s = .next t → t.err.code = .none →
    u.params = s.params → u.latch.srcAddr = s.latch.dstAddr → u.latch.srcLen = t.res.outLen →
    (∀ a, s.dst ≤ a → a < s.dst + imageLen s.ct → u.buf.read a = t.buf.read a) →
    exec .contParse u = .next (u.parseFailed
        { code := .checksumMismatch, field := .crc,
          offset := BitVec.ofNat 32 (s.dst + 8 + (framesOf cs).length + 8 + d.length),
          index := BitVec.ofNat 32 pre.length })

/-! ## The invariant -/

/-- Every step keeps the invariant of the block, from every state that has it. -/
def Obligations.EveryStepKeepsTheInvariant : Prop :=
  ∀ s t : State, s.Inv → step s = .next t → t.Inv

/-- The reset state has the invariant, for the model's default parameters and for all that meet R9. -/
def Obligations.ResetStateHasTheInvariant : Prop :=
  State.reset.Inv ∧ ∀ p : Params, p.wf = true → (State.resetOf p).Inv
end

