-- ==== Sys2Proof/Laws/Operands.lean ====
section
/-! SUPPORT. Big-endian packing and its inverse, the frame layout, and the type-code predicates by byte. -/

namespace Sys2Proof.Machine

/-- be32 as R12 writes it. -/
theorem be32_toNat (b0 b1 b2 b3 : Byte) :
    (be32 b0 b1 b2 b3).toNat = b0.toNat * 2 ^ 24 + b1.toNat * 2 ^ 16 + b2.toNat * 2 ^ 8 + b3.toNat := by
  have h0 := b0.isLt
  have h1 := b1.isLt
  have h2 := b2.isLt
  have h3 := b3.isLt
  have e1 : (b0 ++ b1).toNat = b0.toNat * 2 ^ 8 + b1.toNat := by
    rw [BitVec.toNat_append, ← Nat.shiftLeft_add_eq_or_of_lt h1, Nat.shiftLeft_eq]
  have e2 : (b0 ++ b1 ++ b2).toNat = (b0.toNat * 2 ^ 8 + b1.toNat) * 2 ^ 8 + b2.toNat := by
    rw [BitVec.toNat_append, ← Nat.shiftLeft_add_eq_or_of_lt h2, Nat.shiftLeft_eq, e1]
  show (b0 ++ b1 ++ b2 ++ b3).toNat = _
  rw [BitVec.toNat_append, ← Nat.shiftLeft_add_eq_or_of_lt h3, Nat.shiftLeft_eq, e2]
  ring

theorem extract_toNat (v : Word) (k : Nat) : (v.extractLsb' k 8).toNat = v.toNat / 2 ^ k % 256 := by
  simp [BitVec.extractLsb'_toNat, Nat.shiftRight_eq_div_pow]

/-- be32bytes is the inverse of be32 (R12). -/
@[simp] theorem be32_extract (v : Word) :
    be32 (v.extractLsb' 24 8) (v.extractLsb' 16 8) (v.extractLsb' 8 8) (v.extractLsb' 0 8) = v := by
  apply BitVec.eq_of_toNat_eq
  have := v.isLt
  rw [be32_toNat, extract_toNat, extract_toNat, extract_toNat, extract_toNat]
  omega

theorem be32Bytes_be32 (b0 b1 b2 b3 : Byte) : be32Bytes (be32 b0 b1 b2 b3) = [b0, b1, b2, b3] := by
  have h0 := b0.isLt
  have h1 := b1.isLt
  have h2 := b2.isLt
  have h3 := b3.isLt
  have key : ∀ (k : Nat) (b : Byte), (be32 b0 b1 b2 b3).toNat / 2 ^ k % 256 = b.toNat →
      (be32 b0 b1 b2 b3).extractLsb' k 8 = b := fun k b h => BitVec.eq_of_toNat_eq (by rw [extract_toNat, h])
  simp only [be32Bytes, List.cons.injEq, and_true]
  refine ⟨key _ _ ?_, key _ _ ?_, key _ _ ?_, key _ _ ?_⟩ <;> rw [be32_toNat] <;> omega

@[simp] theorem be32Bytes_length (v : Word) : (be32Bytes v).length = 4 := rfl

@[simp] theorem frameBytes_length (len type crc : Word) (d : List Byte) :
    (frameBytes len type d crc).length = 12 + d.length := by
  simp only [frameBytes, List.length_append, be32Bytes_length]; omega

/-- The 32-bit field at the place where be32bytes of `v` stand. -/
theorem word32At_append (v : Word) (x y : List Byte) : word32At (x ++ be32Bytes v ++ y) x.length = v := by
  have h : ∀ k, k < 4 → (x ++ be32Bytes v ++ y).getD (x.length + k) 0 = (be32Bytes v).getD k 0 := by
    intro k hk
    rw [List.append_assoc, List.getD_append_right _ _ _ _ (by omega), Nat.add_sub_cancel_left,
      List.getD_append _ _ _ _ (by simpa using hk)]
  have h0 := h 0 (by omega)
  rw [Nat.add_zero] at h0
  rw [word32At, h0, h 1 (by omega), h 2 (by omega), h 3 (by omega)]
  exact be32_extract v

/-- Four bytes are be32bytes of the field they make. -/
theorem take_four (b : List Byte) (i : Nat) (h : i + 4 ≤ b.length) :
    (b.drop i).take 4 = be32Bytes (word32At b i) := by
  rw [word32At, be32Bytes_be32, List.getD_eq_getElem _ _ (by omega : i < b.length),
    List.getD_eq_getElem _ _ (by omega : i + 1 < b.length), List.getD_eq_getElem _ _ (by omega : i + 2 < b.length),
    List.getD_eq_getElem _ _ (by omega : i + 3 < b.length), List.drop_eq_getElem_cons (by omega : i < b.length),
    List.drop_eq_getElem_cons (by omega : i + 1 < b.length), List.drop_eq_getElem_cons (by omega : i + 2 < b.length),
    List.drop_eq_getElem_cons (by omega : i + 3 < b.length)]
  rfl

/-- TypeOk by byte (R130). -/
theorem typeOk_iff (t : Word) : typeOk t = true ↔ ∀ k, k < 4 → isAlpha (typeByte t k) = true := by
  simp only [typeOk, Bool.and_eq_true]
  constructor
  · rintro ⟨⟨⟨h0, h1⟩, h2⟩, h3⟩ k hk
    interval_cases k <;> assumption
  · intro h
    exact ⟨⟨⟨h 0 (by omega), h 1 (by omega)⟩, h 2 (by omega)⟩, h 3 (by omega)⟩

/-- FirstBad is the least position of a byte that is not a letter (R130). -/
theorem firstBad_eq (t : Word) (k : Nat) (hk : k < 4) (hbad : isAlpha (typeByte t k) = false)
    (hmin : ∀ j, j < k → isAlpha (typeByte t j) = true) : firstBad t = k := by
  unfold firstBad
  interval_cases k
  · simp [hbad]
  · simp [hbad, hmin 0 (by omega)]
  · simp [hbad, hmin 0 (by omega), hmin 1 (by omega)]
  · simp [hmin 0 (by omega), hmin 1 (by omega), hmin 2 (by omega)]

theorem typeOk_eq_false (t : Word) (k : Nat) (hk : k < 4) (hbad : isAlpha (typeByte t k) = false) :
    typeOk t = false := by
  by_contra h
  rw [Bool.not_eq_false] at h
  rw [(typeOk_iff t).mp h k hk] at hbad
  cases hbad

theorem firstBad_lt (t : Word) : firstBad t < 4 := by
  unfold firstBad; split_ifs <;> omega

/-- Where TypeOk fails there is a first byte that is not a letter. -/
theorem firstBad_spec (t : Word) (h : typeOk t = false) :
    isAlpha (typeByte t (firstBad t)) = false ∧ ∀ j, j < firstBad t → isAlpha (typeByte t j) = true := by
  unfold firstBad
  split_ifs with h0 h1 h2
  · exact ⟨by simpa using h0, by omega⟩
  · refine ⟨by simpa using h1, fun j hj => ?_⟩
    interval_cases j; simpa using h0
  · refine ⟨by simpa using h2, fun j hj => ?_⟩
    interval_cases j
    · simpa using h0
    · simpa using h1
  · refine ⟨?_, fun j hj => ?_⟩
    · simp only [Bool.not_eq_true', Bool.not_eq_false] at h0 h1 h2
      simpa [typeOk, h0, h1, h2] using h
    · interval_cases j
      · simpa using h0
      · simpa using h1
      · simpa using h2

end Sys2Proof.Machine
end

