-- ==== Sys2Proof/Laws/Frame.lean ====
section
/-! SUPPORT. The frame parser: the fields of a laid-out frame, and what a successful parse means (42_chunk.md R150, R153). -/

namespace Sys2Proof.Machine

section Fields

variable (len type crc : Word) (d rest : List Byte)

theorem frame_len_field : word32At (frameBytes len type d crc ++ rest) 0 = len := by
  have := word32At_append len [] (be32Bytes type ++ d ++ be32Bytes crc ++ rest)
  simpa [frameBytes, List.append_assoc] using this

theorem frame_type_field : word32At (frameBytes len type d crc ++ rest) 4 = type := by
  have := word32At_append type (be32Bytes len) (d ++ be32Bytes crc ++ rest)
  simpa [frameBytes, List.append_assoc] using this

theorem frame_crc_field : word32At (frameBytes len type d crc ++ rest) (8 + d.length) = crc := by
  have := word32At_append crc (be32Bytes len ++ be32Bytes type ++ d) rest
  have hl : (be32Bytes len ++ be32Bytes type ++ d).length = 8 + d.length := by
    simp only [List.length_append, be32Bytes_length]
  rwa [hl] at this

theorem frame_data_field : ((frameBytes len type d crc ++ rest).drop 8).take d.length = d := by
  have h : (frameBytes len type d crc ++ rest) = (be32Bytes len ++ be32Bytes type) ++ (d ++ (be32Bytes crc ++ rest)) := by
    simp [frameBytes]
  have h8 : (be32Bytes len ++ be32Bytes type).length = 8 := rfl
  rw [h, ← h8, List.drop_left, List.take_left]

theorem frame_take : (frameBytes len type d crc ++ rest).take (12 + d.length) = frameBytes len type d crc := by
  rw [← frameBytes_length len type crc d, List.take_left]

theorem frame_drop : (frameBytes len type d crc ++ rest).drop (12 + d.length) = rest := by
  rw [← frameBytes_length len type crc d, List.drop_left]

end Fields

/-- A byte sequence of the right length is the frame of its own fields. -/
theorem frame_of_fields (b : List Byte) (L : Nat) (h : b.length = 12 + L) :
    b = frameBytes (word32At b 0) (word32At b 4) ((b.drop 8).take L) (word32At b (8 + L)) := by
  rw [frameBytes, ← take_four b 0 (by omega), ← take_four b 4 (by omega), ← take_four b (8 + L) (by omega)]
  have h3 : (b.drop (8 + L)).take 4 = b.drop (8 + L) := List.take_of_length_le (by simp; omega)
  rw [h3, List.drop_zero]
  have e1 : b.take 4 ++ (b.drop 4).take 4 = b.take 8 := (List.take_add (l := b) (i := 4) (j := 4)).symm
  have e2 : b.take 8 ++ (b.drop 8).take L = b.take (8 + L) := (List.take_add (l := b) (i := 8) (j := L)).symm
  rw [e1, e2, List.take_append_drop]

/-- A well-formed frame (R87) parses, to its own fields. -/
theorem parseFrame_frame (base : Nat) (len type : Word) (d : List Byte) (hd : d.length = len.toNat)
    (ht : typeOk type = true) :
    parseFrame base (frameBytes len type d (crc32 (be32Bytes type ++ d))) =
      .ok { type := type, len := len, crc := crc32 (be32Bytes type ++ d), addr := BitVec.ofNat 32 (base + 8) } := by
  have f0 := frame_len_field len type (crc32 (be32Bytes type ++ d)) d []
  have f1 := frame_type_field len type (crc32 (be32Bytes type ++ d)) d []
  have f2 := frame_crc_field len type (crc32 (be32Bytes type ++ d)) d []
  have f3 := frame_data_field len type (crc32 (be32Bytes type ++ d)) d []
  rw [List.append_nil] at f0 f1 f2 f3
  rw [hd] at f2 f3
  simp only [parseFrame, f0, f1, f2, f3, frameBytes_length, ht, hd]
  rw [if_neg (by omega), if_neg (by omega), if_neg (by simp), if_neg (by omega), if_neg (by omega), if_neg (by omega),
    if_neg (by simp)]

/-- A parse succeeds only on a well-formed frame, and reports its fields (R153). -/
theorem parseFrame_ok {base : Nat} {b : List Byte} {e : Descriptor} (h : parseFrame base b = .ok e) :
    ∃ d : List Byte, d.length = e.len.toNat ∧ typeOk e.type = true ∧ e.crc = crc32 (be32Bytes e.type ++ d) ∧
      e.addr = BitVec.ofNat 32 (base + 8) ∧ b = frameBytes e.len e.type d e.crc := by
  simp only [parseFrame] at h
  split_ifs at h with h1 h2 h3 h4 h5 h6 h7
  injection h with h
  subst h
  have hl : b.length = 12 + (word32At b 0).toNat := by omega
  have hb := frame_of_fields b _ hl
  refine ⟨(b.drop 8).take (word32At b 0).toNat, ?_, by simpa using h3, by simpa using (not_not.mp h7).symm, rfl, hb⟩
  simp; omega

/-- Every error of the frame parser carries index 0. -/
theorem parseFrame_error_index {base : Nat} {b : List Byte} {e : ErrorRecord} (h : parseFrame base b = .error e) :
    e.index = 0 := by
  simp only [parseFrame] at h
  split_ifs at h <;> (injection h with h; subst h; rfl)

/-- Every error of the frame parser is one of those R220 lists for CHUNK_PARSE. -/
theorem parseFrame_error_code {base : Nat} {b : List Byte} {e : ErrorRecord} (h : parseFrame base b = .error e) :
    e.code ≠ .none ∧ e.code ≠ .notUtf8 := by
  simp only [parseFrame] at h
  split_ifs at h <;> (injection h with h; subst h; exact ⟨by simp [errorAt], by simp [errorAt]⟩)

/-! ## The errors of the frame parser, in the order of its checks (R150) -/

/-- The fields of a byte sequence that begins with a length field and a type field. -/
theorem header_fields (len t : Word) (x : List Byte) :
    word32At (be32Bytes len ++ be32Bytes t ++ x) 0 = len ∧ word32At (be32Bytes len ++ be32Bytes t ++ x) 4 = t ∧
    (be32Bytes len ++ be32Bytes t ++ x).length = 8 + x.length ∧ (be32Bytes len ++ be32Bytes t ++ x).drop 8 = x := by
  refine ⟨?_, ?_, ?_, ?_⟩
  · simpa [List.append_assoc] using word32At_append len [] (be32Bytes t ++ x)
  · simpa [List.append_assoc] using word32At_append t (be32Bytes len) x
  · simp only [List.length_append, be32Bytes_length]
  · have h8 : (be32Bytes len ++ be32Bytes t).length = 8 := rfl
    rw [← h8, List.drop_left]

theorem parseFrame_no_length (base : Nat) (b : List Byte) (h : b.length < 4) :
    parseFrame base b = .error (errorAt .truncatedData .length base 0) := by
  simp only [parseFrame]; rw [if_pos h]

theorem parseFrame_no_type (base : Nat) (b : List Byte) (h4 : 4 ≤ b.length) (h8 : b.length < 8) :
    parseFrame base b = .error (errorAt .truncatedData .type (base + 4) 0) := by
  simp only [parseFrame]; rw [if_neg (by omega), if_pos h8]

theorem parseFrame_bad_type (base : Nat) (len t : Word) (x : List Byte) (k : Nat) (hk : k < 4)
    (hbad : isAlpha (typeByte t k) = false) (hmin : ∀ j, j < k → isAlpha (typeByte t j) = true) :
    parseFrame base (be32Bytes len ++ be32Bytes t ++ x) = .error (errorAt .invalidTypeBytes .type (base + 4 + k) 0) := by
  obtain ⟨e0, e1, e2, e3⟩ := header_fields len t x
  simp only [parseFrame, e0, e1, e2, e3]
  rw [if_neg (by omega), if_neg (by omega), if_pos (by simp [typeOk_eq_false _ k hk hbad]), firstBad_eq _ k hk hbad hmin]

theorem parseFrame_short_data (base : Nat) (len t : Word) (x : List Byte) (ht : typeOk t = true)
    (h : x.length < len.toNat) :
    parseFrame base (be32Bytes len ++ be32Bytes t ++ x) = .error (errorAt .truncatedData .data (base + 8) 0) := by
  obtain ⟨e0, e1, e2, e3⟩ := header_fields len t x
  simp only [parseFrame, e0, e1, e2, e3]
  rw [if_neg (by omega), if_neg (by omega), if_neg (by simp [ht]), if_pos (by omega)]

theorem parseFrame_short_crc (base : Nat) (len t : Word) (x : List Byte) (ht : typeOk t = true)
    (h : len.toNat ≤ x.length) (h' : x.length < len.toNat + 4) :
    parseFrame base (be32Bytes len ++ be32Bytes t ++ x) =
      .error (errorAt .truncatedData .crc (base + 8 + len.toNat) 0) := by
  obtain ⟨e0, e1, e2, e3⟩ := header_fields len t x
  simp only [parseFrame, e0, e1, e2, e3]
  rw [if_neg (by omega), if_neg (by omega), if_neg (by simp [ht]), if_neg (by omega), if_pos (by omega)]

theorem parseFrame_trailing (base : Nat) (len t : Word) (x : List Byte) (ht : typeOk t = true)
    (h : len.toNat + 4 < x.length) :
    parseFrame base (be32Bytes len ++ be32Bytes t ++ x) =
      .error (errorAt .trailingBytes .trailing (base + 12 + len.toNat) 0) := by
  obtain ⟨e0, e1, e2, e3⟩ := header_fields len t x
  simp only [parseFrame, e0, e1, e2, e3]
  rw [if_neg (by omega), if_neg (by omega), if_neg (by simp [ht]), if_neg (by omega), if_neg (by omega),
    if_pos (by omega)]

theorem parseFrame_mismatch (base : Nat) (len t : Word) (d : List Byte) (stored : Word) (ht : typeOk t = true)
    (hd : d.length = len.toNat) (h : stored ≠ crc32 (be32Bytes t ++ d)) :
    parseFrame base (frameBytes len t d stored) = .error (errorAt .checksumMismatch .crc (base + 8 + len.toNat) 0) := by
  have f0 := frame_len_field len t stored d []
  have f1 := frame_type_field len t stored d []
  have f2 := frame_crc_field len t stored d []
  have f3 := frame_data_field len t stored d []
  rw [List.append_nil] at f0 f1 f2 f3
  rw [hd] at f2 f3
  simp only [parseFrame, f0, f1, f2, f3, frameBytes_length, hd]
  rw [if_neg (by omega), if_neg (by omega), if_neg (by simp [ht]), if_neg (by omega), if_neg (by omega),
    if_neg (by omega), if_pos h.symm]

end Sys2Proof.Machine
end

