-- ==== Sys2Proof/Laws/Memory.lean ====
section
/-! SUPPORT. What the buffer operations do, by the bytes they leave to be read, and that each keeps the canonical form. -/

namespace Sys2Proof.Machine

@[simp] theorem Memory.read_nil (a : Nat) : Memory.read [] a = none := rfl

theorem Memory.read_cons (k : Nat) (v : Byte) (rest : Memory) (a : Nat) :
    Memory.read ((k, v) :: rest) a = if k = a then some v else Memory.read rest a := rfl

/-- A store is read back at its address and changes no other. -/
theorem Memory.read_write (m : Memory) (a x : Nat) (b : Byte) :
    (m.write a b).read x = if x = a then some b else m.read x := by
  induction m with
  | nil => simp only [Memory.write, Memory.read_cons, Memory.read_nil, eq_comm]
  | cons c rest ih =>
    obtain ⟨k, v⟩ := c
    simp only [Memory.write]
    by_cases h1 : a < k
    · rw [if_pos h1, Memory.read_cons]
      simp only [eq_comm]
    · rw [if_neg h1]
      by_cases h2 : a = k
      · subst h2
        rw [if_pos rfl]
        simp only [Memory.read_cons, eq_comm (a := x)]
        split_ifs <;> rfl
      · rw [if_neg h2, Memory.read_cons, ih, Memory.read_cons]
        split_ifs with h3 h4 <;> first | rfl | exact absurd (h4.symm.trans h3.symm) h2

/-- What a written range reads as, byte by byte. -/
theorem Memory.read_writeRange (m : Memory) (a x : Nat) (bs : List Byte) :
    (m.writeRange a bs).read x = if a ≤ x ∧ x < a + bs.length then bs[x - a]? else m.read x := by
  induction bs generalizing m a with
  | nil => simp [Memory.writeRange]
  | cons b bs ih =>
    rw [Memory.writeRange, ih, Memory.read_write]
    rcases Nat.lt_trichotomy x a with h | h | h
    · rw [if_neg (by omega), if_neg (by omega), if_neg (by omega)]
    · subst h; simp
    · have hx : x - a = (x - (a + 1)) + 1 := by omega
      by_cases hl : x < a + 1 + bs.length
      · rw [if_pos (by omega), if_pos (by simp; omega), hx, List.getElem?_cons_succ]
      · rw [if_neg (by omega), if_neg (by omega), if_neg (by simp; omega)]

/-- Erased bytes are unwritten, the others keep their value. -/
theorem Memory.read_eraseRange (m : Memory) (a n x : Nat) :
    (m.eraseRange a n).read x = if a ≤ x ∧ x < a + n then none else m.read x := by
  induction m with
  | nil => simp [Memory.eraseRange]
  | cons c rest ih =>
    obtain ⟨k, v⟩ := c
    rw [Memory.eraseRange] at ih ⊢
    by_cases hk : a ≤ k ∧ k < a + n
    · rw [List.filter_cons_of_neg (by simp [hk]), ih, Memory.read_cons]
      split_ifs with h1 h2
      · rfl
      · subst h2; exact absurd hk h1
      · rfl
    · rw [List.filter_cons_of_pos (by simp; omega), Memory.read_cons, ih, Memory.read_cons]
      split_ifs with h1 h2
      · subst h1; exact absurd h2 hk
      · rfl
      · rfl
      · rfl

/-- MemRead succeeds exactly when every byte of the range is written, and gives those bytes in order. -/
theorem Memory.readRange_eq_some (m : Memory) (a n : Nat) (bs : List Byte) :
    m.readRange a n = some bs ↔ bs.length = n ∧ ∀ k, k < n → m.read (a + k) = bs[k]? := by
  induction n generalizing a bs with
  | zero =>
    simp only [Memory.readRange, Option.some.injEq]
    constructor
    · rintro rfl; simp
    · rintro ⟨h, -⟩; exact (List.length_eq_zero_iff.mp h).symm
  | succ n ih =>
    rw [Memory.readRange]
    constructor
    · intro h
      rcases hr : m.read a with _ | b
      · simp [hr] at h
      · rcases ht : m.readRange (a + 1) n with _ | t
        · simp [hr, ht] at h
        · obtain ⟨hl, hk⟩ := (ih (a + 1) t).mp ht
          simp only [hr, ht, Option.some.injEq] at h
          subst h
          refine ⟨by simp [hl], fun k hkn => ?_⟩
          cases k with
          | zero => simpa using hr
          | succ k => simpa [Nat.add_assoc, Nat.add_comm 1 k] using hk k (by omega)
    · rintro ⟨hl, hk⟩
      cases bs with
      | nil => simp at hl
      | cons b t =>
        have h0 : m.read a = some b := by simpa using hk 0 (by omega)
        have ht : m.readRange (a + 1) n = some t := by
          refine (ih (a + 1) t).mpr ⟨by simpa using hl, fun k hkn => ?_⟩
          simpa [Nat.add_assoc, Nat.add_comm 1 k] using hk (k + 1) (by omega)
        simp [h0, ht]

/-- MemRead fails exactly when a byte of the range is unwritten. -/
theorem Memory.readRange_eq_none (m : Memory) (a n : Nat) :
    m.readRange a n = none ↔ ∃ k, k < n ∧ m.read (a + k) = none := by
  induction n generalizing a with
  | zero => simp [Memory.readRange]
  | succ n ih =>
    rw [Memory.readRange]
    rcases hr : m.read a with _ | b
    · simp only [true_iff]; exact ⟨0, by omega, hr⟩
    · have : (∃ k, k < n + 1 ∧ m.read (a + k) = none) ↔ ∃ k, k < n ∧ m.read (a + 1 + k) = none := by
        constructor
        · rintro ⟨k, hk, h⟩
          cases k with
          | zero => simp [hr] at h
          | succ k => exact ⟨k, by omega, by rwa [Nat.add_assoc, Nat.add_comm 1 k]⟩
        · rintro ⟨k, hk, h⟩; exact ⟨k + 1, by omega, by rwa [Nat.add_assoc, Nat.add_comm 1 k] at h⟩
      rw [this, ← ih]
      rcases m.readRange (a + 1) n with _ | t <;> simp

theorem Memory.length_of_readRange {m : Memory} {a n : Nat} {bs : List Byte} (h : m.readRange a n = some bs) :
    bs.length = n := ((Memory.readRange_eq_some m a n bs).mp h).1

/-! ## The canonical form -/

theorem Memory.wf_nil : Memory.wf [] := List.Pairwise.nil

theorem Memory.mem_write {m : Memory} {a : Nat} {b : Byte} {c : Host.Cell} (h : c ∈ m.write a b) :
    c = (a, b) ∨ c ∈ m := by
  induction m with
  | nil => simpa [Memory.write] using h
  | cons d rest ih =>
    obtain ⟨k, v⟩ := d
    simp only [Memory.write] at h
    split_ifs at h with h1 h2
    · simpa using h
    · rcases List.mem_cons.mp h with h | h
      · exact .inl h
      · exact .inr (List.mem_cons_of_mem _ h)
    · rcases List.mem_cons.mp h with h | h
      · exact .inr (by simp [h])
      · rcases ih h with h | h
        · exact .inl h
        · exact .inr (List.mem_cons_of_mem _ h)

theorem Memory.wf_write {m : Memory} (h : m.wf) (a : Nat) (b : Byte) : (m.write a b).wf := by
  induction m with
  | nil => simp [Memory.write, Memory.wf]
  | cons d rest ih =>
    obtain ⟨k, v⟩ := d
    obtain ⟨hd, hr⟩ := List.pairwise_cons.mp h
    simp only [Memory.write]
    split_ifs with h1 h2
    · refine List.pairwise_cons.mpr ⟨fun c hc => ?_, h⟩
      rcases List.mem_cons.mp hc with rfl | hc
      · exact h1
      · exact lt_trans h1 (hd c hc)
    · subst h2; exact List.pairwise_cons.mpr ⟨hd, hr⟩
    · refine List.pairwise_cons.mpr ⟨fun c hc => ?_, ih hr⟩
      rcases Memory.mem_write hc with rfl | hc
      · simp only; omega
      · exact hd c hc

theorem Memory.wf_writeRange {m : Memory} (h : m.wf) (a : Nat) (bs : List Byte) : (m.writeRange a bs).wf := by
  induction bs generalizing m a with
  | nil => exact h
  | cons b bs ih => exact ih (Memory.wf_write h a b) (a + 1)

theorem Memory.wf_eraseRange {m : Memory} (h : m.wf) (a n : Nat) : (m.eraseRange a n).wf :=
  List.Pairwise.filter _ h

/-! ## Which addresses are listed -/

theorem Memory.mem_writeRange {m : Memory} {a : Nat} {bs : List Byte} {c : Host.Cell} (h : c ∈ m.writeRange a bs) :
    (a ≤ c.1 ∧ c.1 < a + bs.length) ∨ c ∈ m := by
  induction bs generalizing m a with
  | nil => exact .inr h
  | cons b bs ih =>
    rcases ih h with h | h
    · left; simp; omega
    · rcases Memory.mem_write h with rfl | h
      · left; simp
      · exact .inr h

theorem Memory.mem_eraseRange {m : Memory} {a n : Nat} {c : Host.Cell} (h : c ∈ m.eraseRange a n) : c ∈ m :=
  (List.mem_filter.mp h).1

/-- Canonical memories with the same bytes are the same list. -/
theorem Memory.ext_of_wf {m m' : Memory} (h : m.wf) (h' : m'.wf) (hr : ∀ a, m.read a = m'.read a) : m = m' := by
  have head : ∀ {k : Nat} {v : Byte} {t : Memory} {a : Nat}, Memory.wf ((k, v) :: t) → a < k →
      Memory.read ((k, v) :: t) a = none := by
    intro k v t a ht ha
    have : ∀ (t : Memory), (∀ c ∈ t, a < c.1) → Memory.read t a = none := by
      intro t
      induction t with
      | nil => intro _; rfl
      | cons d t ih =>
        intro hd
        obtain ⟨j, w⟩ := d
        have := hd (j, w) (by simp)
        rw [Memory.read_cons, if_neg (by simp at this; omega)]
        exact ih fun c hc => hd c (List.mem_cons_of_mem _ hc)
    refine this _ fun c hc => ?_
    rcases List.mem_cons.mp hc with rfl | hc
    · exact ha
    · exact lt_trans ha ((List.pairwise_cons.mp ht).1 c hc)
  induction m generalizing m' with
  | nil =>
    cases m' with
    | nil => rfl
    | cons d t => obtain ⟨k, v⟩ := d; have := hr k; simp [Memory.read_cons] at this
  | cons d t ih =>
    obtain ⟨k, v⟩ := d
    cases m' with
    | nil => have := hr k; simp [Memory.read_cons] at this
    | cons d' t' =>
      obtain ⟨k', v'⟩ := d'
      have hk : k = k' := by
        rcases Nat.lt_trichotomy k k' with hlt | heq | hgt
        · have := hr k; rw [head h' hlt, Memory.read_cons, if_pos rfl] at this; simp at this
        · exact heq
        · have := hr k'; rw [head h hgt, Memory.read_cons, if_pos rfl] at this; simp at this
      subst hk
      have hv : v = v' := by have := hr k; simpa [Memory.read_cons] using this
      subst hv
      have : t = t' := by
        refine ih (List.pairwise_cons.mp h).2 (List.pairwise_cons.mp h').2 fun a => ?_
        by_cases ha : k = a
        · subst ha
          have lo : ∀ {t : Memory}, Memory.wf ((k, v) :: t) → Memory.read t k = none := by
            intro t ht
            cases t with
            | nil => rfl
            | cons c t =>
              obtain ⟨j, w⟩ := c
              exact head (List.pairwise_cons.mp ht).2 ((List.pairwise_cons.mp ht).1 (j, w) (by simp))
          rw [lo h, lo h']
        · have := hr a
          rwa [Memory.read_cons, Memory.read_cons, if_neg ha, if_neg ha] at this
      rw [this]

end Sys2Proof.Machine
end

