-- ==== Sys2Proof/Laws/Container.lean ====
section
/-! SUPPORT. The container parser and the image it is the inverse of (43_container.md R171, R172, R184). -/

namespace Sys2Proof.Machine

@[simp] theorem Chunk.frame_length (c : Chunk) : c.frame.length = 12 + c.data.length := frameBytes_length ..

@[simp] theorem framesOf_nil : framesOf [] = [] := rfl

@[simp] theorem framesOf_cons (c : Chunk) (cs : List Chunk) : framesOf (c :: cs) = c.frame ++ framesOf cs := rfl

@[simp] theorem tableOf_nil (pos : Nat) : tableOf pos [] = [] := rfl

@[simp] theorem tableOf_cons (pos : Nat) (c : Chunk) (cs : List Chunk) :
    tableOf pos (c :: cs) = c.entry pos :: tableOf (pos + 12 + c.data.length) cs := rfl

theorem framesOf_append (cs cs' : List Chunk) : framesOf (cs ++ cs') = framesOf cs ++ framesOf cs' := by
  induction cs with
  | nil => rfl
  | cons c cs ih => simp [ih]

@[simp] theorem tableOf_length (pos : Nat) (cs : List Chunk) : (tableOf pos cs).length = cs.length := by
  induction cs generalizing pos with
  | nil => rfl
  | cons c cs ih => simp [ih]

theorem Chunk.len_toNat {c : Chunk} (h : c.ok) : (BitVec.ofNat 32 c.data.length).toNat = c.data.length := by
  simpa using Nat.mod_eq_of_lt h.2

/-- A chunk's frame parses to its descriptor. -/
theorem parseFrame_chunk (pos : Nat) (c : Chunk) (h : c.ok) : parseFrame pos c.frame = .ok (c.entry pos) :=
  parseFrame_frame pos _ c.type c.data (Chunk.len_toNat h).symm h.1

/-- The `while` loop stops where no bytes are left. -/
theorem parseChunks_nil (cap fuel pos i : Nat) (tbl : List Descriptor) : parseChunks cap fuel pos i [] tbl = .ok tbl := by
  cases fuel <;> simp [parseChunks]

/-- The loop's result does not depend on the fuel once there is a unit for every byte. -/
theorem parseChunks_fuel {cap f f' pos i : Nat} {rest : List Byte} {tbl : List Descriptor}
    (h : rest.length ≤ f) (h' : rest.length ≤ f') :
    parseChunks cap f pos i rest tbl = parseChunks cap f' pos i rest tbl := by
  induction f generalizing f' pos i rest tbl with
  | zero =>
    obtain rfl := List.length_eq_zero_iff.mp (by omega : rest.length = 0)
    rw [parseChunks_nil, parseChunks_nil]
  | succ f ih =>
    cases f' with
    | zero =>
      obtain rfl := List.length_eq_zero_iff.mp (by omega : rest.length = 0)
      rw [parseChunks_nil, parseChunks_nil]
    | succ f' =>
      simp only [parseChunks]
      rcases parseFrame pos (rest.take (12 + (word32At rest 0).toNat)) with e | e <;> simp only
      split_ifs
      iterate 6 rfl
      exact ih (by simp; omega) (by simp; omega)

/-- One turn of the loop on a whole well-formed frame, capacity permitting. -/
theorem parseChunks_chunk {cap fuel pos i : Nat} {c : Chunk} {rest : List Byte} {tbl : List Descriptor} (hc : c.ok)
    (hf : (c.frame ++ rest).length ≤ fuel) (hi : i ≠ cap) :
    parseChunks cap fuel pos i (c.frame ++ rest) tbl =
      parseChunks cap fuel (pos + 12 + c.data.length) (i + 1) rest (tbl ++ [c.entry pos]) := by
  simp only [List.length_append, Chunk.frame_length] at hf
  cases fuel with
  | zero => omega
  | succ fuel =>
    have hL := frame_len_field (BitVec.ofNat 32 c.data.length) c.type c.crc c.data rest
    change word32At (c.frame ++ rest) 0 = _ at hL
    have htake : (c.frame ++ rest).take (12 + c.data.length) = c.frame := frame_take ..
    have hdrop : (c.frame ++ rest).drop (12 + c.data.length) = rest := frame_drop ..
    rw [parseChunks]
    simp only [hL, Chunk.len_toNat hc, List.length_append, Chunk.frame_length, htake, hdrop, parseFrame_chunk pos c hc]
    rw [if_neg (by omega), if_neg (by omega), if_neg (by omega), if_neg (by omega), if_neg (by omega), if_neg hi]
    exact parseChunks_fuel (by omega) (by omega)

/-- The loop over whole well-formed frames fills the table and goes on with what follows them. -/
theorem parseChunks_frames {cap fuel pos i : Nat} {cs : List Chunk} {rest : List Byte} {tbl : List Descriptor}
    (hc : ∀ c ∈ cs, c.ok) (hf : (framesOf cs ++ rest).length ≤ fuel) (hi : i + cs.length ≤ cap) :
    parseChunks cap fuel pos i (framesOf cs ++ rest) tbl =
      parseChunks cap fuel (pos + (framesOf cs).length) (i + cs.length) rest (tbl ++ tableOf pos cs) := by
  induction cs generalizing pos i tbl with
  | nil => simp
  | cons c cs ih =>
    simp only [List.length_cons] at hi
    simp only [framesOf_cons, List.append_assoc] at hf ⊢
    rw [parseChunks_chunk (hc c (by simp)) hf (by omega),
      ih (fun d hd => hc d (List.mem_cons_of_mem _ hd)) (by simp at hf ⊢; omega) (by omega)]
    simp only [List.length_append, Chunk.frame_length, tableOf_cons, List.append_assoc, List.singleton_append,
      List.length_cons]
    congr 1 <;> omega

/-- Whenever the loop succeeds, the bytes were whole well-formed frames and the table lists them (R172). -/
theorem parseChunks_ok {cap fuel pos i : Nat} {rest : List Byte} {tbl out : List Descriptor}
    (hf : rest.length ≤ fuel) (hi : i ≤ cap) (h : parseChunks cap fuel pos i rest tbl = .ok out) :
    ∃ cs : List Chunk, (∀ c ∈ cs, c.ok) ∧ i + cs.length ≤ cap ∧ rest = framesOf cs ∧ out = tbl ++ tableOf pos cs := by
  induction fuel generalizing pos i rest tbl with
  | zero =>
    obtain rfl := List.length_eq_zero_iff.mp (by omega : rest.length = 0)
    rw [parseChunks_nil] at h
    injection h with h
    exact ⟨[], by simp, by simpa using hi, rfl, by simp [h]⟩
  | succ fuel ih =>
    rcases hp : parseFrame pos (rest.take (12 + (word32At rest 0).toNat)) with e | e <;>
      simp only [parseChunks, hp] at h <;> split_ifs at h with h0 h1 h2 h3 h4
    iterate 2
      · obtain rfl := List.length_eq_zero_iff.mp h0
        injection h with h
        exact ⟨[], by simp, by simpa using hi, rfl, by simp [h]⟩
    · · obtain ⟨d, hd, ht, hcrc, haddr, hb⟩ := parseFrame_ok hp
        have hlen : (rest.take (12 + (word32At rest 0).toNat)).length = 12 + (word32At rest 0).toNat := by
          simp; omega
        have hdl : d.length = (word32At rest 0).toNat := by
          have := congrArg List.length hb
          rw [hlen, frameBytes_length] at this
          omega
        obtain ⟨cs, hok, hn, hrest, hout⟩ := ih (by simp; omega) (by omega) h
        have hlt : d.length < 2 ^ 32 := hdl ▸ (word32At rest 0).isLt
        have hle : BitVec.ofNat 32 d.length = e.len := by rw [hd]; simp
        have hce : (Chunk.mk e.type d).entry pos = e := by
          simp only [Chunk.entry, Chunk.crc, hle, ← hcrc, ← haddr]
        have hfr : (Chunk.mk e.type d).frame = rest.take (12 + (word32At rest 0).toNat) := by
          simp only [Chunk.frame, Chunk.crc, hle, ← hcrc]; exact hb.symm
        refine ⟨⟨e.type, d⟩ :: cs, ?_, by simp only [List.length_cons]; omega, ?_, ?_⟩
        · intro c hcm
          rcases List.mem_cons.mp hcm with rfl | hcm
          · exact ⟨ht, hlt⟩
          · exact hok c hcm
        · rw [framesOf_cons, hfr, ← hrest, List.take_append_drop]
        · rw [hout, tableOf_cons, hce, hdl, List.append_assoc, List.singleton_append]

/-- CONT_PARSE accepts exactly the byte images of R88 within its capacity. -/
theorem parseContainer_ok_iff {cap src : Nat} {b : List Byte} {out : List Descriptor} :
    parseContainer cap src b = .ok out ↔
      ∃ cs : List Chunk, (∀ c ∈ cs, c.ok) ∧ cs.length ≤ cap ∧ b = signature ++ framesOf cs ∧ out = tableOf (src + 8) cs := by
  unfold parseContainer
  have hs : signature.length = 8 := rfl
  constructor
  · intro h
    split_ifs at h with hb
    push Not at hb
    obtain ⟨cs, hok, hn, hrest, hout⟩ := parseChunks_ok (by simp) (Nat.zero_le _) h
    refine ⟨cs, hok, by omega, ?_, by simpa using hout⟩
    rw [← hrest, ← hb.2, List.take_append_drop]
  · rintro ⟨cs, hok, hn, rfl, rfl⟩
    have htake : (signature ++ framesOf cs).take 8 = signature := by rw [← hs, List.take_left]
    have hdrop : (signature ++ framesOf cs).drop 8 = framesOf cs ++ [] := by rw [← hs, List.drop_left, List.append_nil]
    rw [if_neg (by simp [htake, hs]), hdrop,
      parseChunks_frames hok (by simp) (by omega), parseChunks_nil, List.nil_append]

/-- Every error of CONT_PARSE is one of those R220 lists for it. -/
theorem parseChunks_error_code {cap fuel pos i : Nat} {rest : List Byte} {tbl : List Descriptor} {e : ErrorRecord}
    (h : parseChunks cap fuel pos i rest tbl = .error e) : e.code ≠ .none ∧ e.code ≠ .notUtf8 := by
  induction fuel generalizing pos i rest tbl with
  | zero => simp [parseChunks] at h
  | succ fuel ih =>
    rcases hp : parseFrame pos (rest.take (12 + (word32At rest 0).toNat)) with e' | e' <;>
      simp only [parseChunks, hp] at h <;> split_ifs at h
    iterate 4 (injection h with h; subst h; exact ⟨by simp [errorAt], by simp [errorAt]⟩)
    · injection h with h
      subst h
      exact parseFrame_error_code (e := e') hp
    iterate 5 (injection h with h; subst h; exact ⟨by simp [errorAt], by simp [errorAt]⟩)
    · exact ih h

/-! ## The image -/

theorem framesLen_eq (cs : List Chunk) (l : List Descriptor)
    (h : List.Forall₂ (fun e c => e.len.toNat = c.data.length) l cs) : framesLen l = (framesOf cs).length := by
  induction h with
  | nil => rfl
  | cons hh _ ih => simp [framesLen, hh, ih]

/-- The image of descriptors that refer to chunks is those chunks' frames. -/
theorem framesImage_eq {s : State} {l : List Descriptor} {cs : List Chunk} (h : List.Forall₂ s.RefersTo l cs) :
    framesImage s.buf l = some (framesOf cs) := by
  induction h with
  | nil => rfl
  | @cons e c l cs hh _ ih =>
    obtain ⟨h1, h2, h3, h4⟩ := hh
    have hr : s.buf.readRange e.addr.toNat e.len.toNat = some c.data :=
      (Memory.readRange_eq_some ..).mpr ⟨h2.symm, fun k hk => h4 k (by omega)⟩
    have hl : e.len = BitVec.ofNat 32 c.data.length := by rw [← h2]; simp
    simp only [framesImage, descriptorBytes, hr, ih, framesOf_cons, Chunk.frame, h1, h3]
    rw [hl]

theorem framesImage_length {m : Memory} {l : List Descriptor} {b : List Byte} (h : framesImage m l = some b) :
    b.length = framesLen l := by
  induction l generalizing b with
  | nil => simp only [framesImage, Option.some.injEq] at h; subst h; rfl
  | cons e l ih =>
    simp only [framesImage, descriptorBytes] at h
    rcases hr : m.readRange e.addr.toNat e.len.toNat with _ | d
    · simp [hr] at h
    · rcases hi : framesImage m l with _ | y
      · simp [hr, hi] at h
      · simp only [hr, hi, Option.some.injEq] at h
        subst h
        have := Memory.length_of_readRange hr
        simp [framesLen, ih hi, this]

end Sys2Proof.Machine
end

