-- ==== Sys2Proof/Laws/State.lean ====
section
/-! SUPPORT. One lemma per field per named update of State, each true by `rfl`: later proofs rewrite with these and never
unfold a record update. -/

namespace Sys2Proof.Machine

variable (s : State)

/-! ### `setBusy` -/

@[simp] theorem State.setBusy_params (v : Bool) : (s.setBusy v).params = s.params := rfl
@[simp] theorem State.setBusy_status (v : Bool) : (s.setBusy v).status = { s.status with busy := v } := rfl
@[simp] theorem State.setBusy_err (v : Bool) : (s.setBusy v).err = s.err := rfl
@[simp] theorem State.setBusy_opnd (v : Bool) : (s.setBusy v).opnd = s.opnd := rfl
@[simp] theorem State.setBusy_crcState (v : Bool) : (s.setBusy v).crcState = s.crcState := rfl
@[simp] theorem State.setBusy_typeFlags (v : Bool) : (s.setBusy v).typeFlags = s.typeFlags := rfl
@[simp] theorem State.setBusy_res (v : Bool) : (s.setBusy v).res = s.res := rfl
@[simp] theorem State.setBusy_ct (v : Bool) : (s.setBusy v).ct = s.ct := rfl
@[simp] theorem State.setBusy_buf (v : Bool) : (s.setBusy v).buf = s.buf := rfl
@[simp] theorem State.setBusy_cmdWord (v : Bool) : (s.setBusy v).cmdWord = s.cmdWord := rfl
@[simp] theorem State.setBusy_latch (v : Bool) : (s.setBusy v).latch = s.latch := rfl
@[simp] theorem State.setBusy_crcInternal (v : Bool) : (s.setBusy v).crcInternal = s.crcInternal := rfl
@[simp] theorem State.setBusy_delay (v : Bool) : (s.setBusy v).delay = s.delay := rfl
@[simp] theorem State.setBusy_draws (v : Bool) : (s.setBusy v).draws = s.draws := rfl
@[simp] theorem State.setBusy_inputs (v : Bool) : (s.setBusy v).inputs = s.inputs := rfl
@[simp] theorem State.setBusy_replies (v : Bool) : (s.setBusy v).replies = s.replies := rfl

/-! ### `setFound` -/

@[simp] theorem State.setFound_params (v : Bool) : (s.setFound v).params = s.params := rfl
@[simp] theorem State.setFound_status (v : Bool) : (s.setFound v).status = { s.status with found := v } := rfl
@[simp] theorem State.setFound_err (v : Bool) : (s.setFound v).err = s.err := rfl
@[simp] theorem State.setFound_opnd (v : Bool) : (s.setFound v).opnd = s.opnd := rfl
@[simp] theorem State.setFound_crcState (v : Bool) : (s.setFound v).crcState = s.crcState := rfl
@[simp] theorem State.setFound_typeFlags (v : Bool) : (s.setFound v).typeFlags = s.typeFlags := rfl
@[simp] theorem State.setFound_res (v : Bool) : (s.setFound v).res = s.res := rfl
@[simp] theorem State.setFound_ct (v : Bool) : (s.setFound v).ct = s.ct := rfl
@[simp] theorem State.setFound_buf (v : Bool) : (s.setFound v).buf = s.buf := rfl
@[simp] theorem State.setFound_cmdWord (v : Bool) : (s.setFound v).cmdWord = s.cmdWord := rfl
@[simp] theorem State.setFound_latch (v : Bool) : (s.setFound v).latch = s.latch := rfl
@[simp] theorem State.setFound_crcInternal (v : Bool) : (s.setFound v).crcInternal = s.crcInternal := rfl
@[simp] theorem State.setFound_delay (v : Bool) : (s.setFound v).delay = s.delay := rfl
@[simp] theorem State.setFound_draws (v : Bool) : (s.setFound v).draws = s.draws := rfl
@[simp] theorem State.setFound_inputs (v : Bool) : (s.setFound v).inputs = s.inputs := rfl
@[simp] theorem State.setFound_replies (v : Bool) : (s.setFound v).replies = s.replies := rfl

/-! ### `setCrcState` -/

@[simp] theorem State.setCrcState_params (v : Word) : (s.setCrcState v).params = s.params := rfl
@[simp] theorem State.setCrcState_status (v : Word) : (s.setCrcState v).status = s.status := rfl
@[simp] theorem State.setCrcState_err (v : Word) : (s.setCrcState v).err = s.err := rfl
@[simp] theorem State.setCrcState_opnd (v : Word) : (s.setCrcState v).opnd = s.opnd := rfl
@[simp] theorem State.setCrcState_crcState (v : Word) : (s.setCrcState v).crcState = v := rfl
@[simp] theorem State.setCrcState_typeFlags (v : Word) : (s.setCrcState v).typeFlags = s.typeFlags := rfl
@[simp] theorem State.setCrcState_res (v : Word) : (s.setCrcState v).res = s.res := rfl
@[simp] theorem State.setCrcState_ct (v : Word) : (s.setCrcState v).ct = s.ct := rfl
@[simp] theorem State.setCrcState_buf (v : Word) : (s.setCrcState v).buf = s.buf := rfl
@[simp] theorem State.setCrcState_cmdWord (v : Word) : (s.setCrcState v).cmdWord = s.cmdWord := rfl
@[simp] theorem State.setCrcState_latch (v : Word) : (s.setCrcState v).latch = s.latch := rfl
@[simp] theorem State.setCrcState_crcInternal (v : Word) : (s.setCrcState v).crcInternal = s.crcInternal := rfl
@[simp] theorem State.setCrcState_delay (v : Word) : (s.setCrcState v).delay = s.delay := rfl
@[simp] theorem State.setCrcState_draws (v : Word) : (s.setCrcState v).draws = s.draws := rfl
@[simp] theorem State.setCrcState_inputs (v : Word) : (s.setCrcState v).inputs = s.inputs := rfl
@[simp] theorem State.setCrcState_replies (v : Word) : (s.setCrcState v).replies = s.replies := rfl

/-! ### `setTypeFlags` -/

@[simp] theorem State.setTypeFlags_params (v : Word) : (s.setTypeFlags v).params = s.params := rfl
@[simp] theorem State.setTypeFlags_status (v : Word) : (s.setTypeFlags v).status = s.status := rfl
@[simp] theorem State.setTypeFlags_err (v : Word) : (s.setTypeFlags v).err = s.err := rfl
@[simp] theorem State.setTypeFlags_opnd (v : Word) : (s.setTypeFlags v).opnd = s.opnd := rfl
@[simp] theorem State.setTypeFlags_crcState (v : Word) : (s.setTypeFlags v).crcState = s.crcState := rfl
@[simp] theorem State.setTypeFlags_typeFlags (v : Word) : (s.setTypeFlags v).typeFlags = v := rfl
@[simp] theorem State.setTypeFlags_res (v : Word) : (s.setTypeFlags v).res = s.res := rfl
@[simp] theorem State.setTypeFlags_ct (v : Word) : (s.setTypeFlags v).ct = s.ct := rfl
@[simp] theorem State.setTypeFlags_buf (v : Word) : (s.setTypeFlags v).buf = s.buf := rfl
@[simp] theorem State.setTypeFlags_cmdWord (v : Word) : (s.setTypeFlags v).cmdWord = s.cmdWord := rfl
@[simp] theorem State.setTypeFlags_latch (v : Word) : (s.setTypeFlags v).latch = s.latch := rfl
@[simp] theorem State.setTypeFlags_crcInternal (v : Word) : (s.setTypeFlags v).crcInternal = s.crcInternal := rfl
@[simp] theorem State.setTypeFlags_delay (v : Word) : (s.setTypeFlags v).delay = s.delay := rfl
@[simp] theorem State.setTypeFlags_draws (v : Word) : (s.setTypeFlags v).draws = s.draws := rfl
@[simp] theorem State.setTypeFlags_inputs (v : Word) : (s.setTypeFlags v).inputs = s.inputs := rfl
@[simp] theorem State.setTypeFlags_replies (v : Word) : (s.setTypeFlags v).replies = s.replies := rfl

/-! ### `setType` -/

@[simp] theorem State.setType_params (v : Word) : (s.setType v).params = s.params := rfl
@[simp] theorem State.setType_status (v : Word) : (s.setType v).status = s.status := rfl
@[simp] theorem State.setType_err (v : Word) : (s.setType v).err = s.err := rfl
@[simp] theorem State.setType_opnd (v : Word) : (s.setType v).opnd = { s.opnd with type := v } := rfl
@[simp] theorem State.setType_crcState (v : Word) : (s.setType v).crcState = s.crcState := rfl
@[simp] theorem State.setType_typeFlags (v : Word) : (s.setType v).typeFlags = s.typeFlags := rfl
@[simp] theorem State.setType_res (v : Word) : (s.setType v).res = s.res := rfl
@[simp] theorem State.setType_ct (v : Word) : (s.setType v).ct = s.ct := rfl
@[simp] theorem State.setType_buf (v : Word) : (s.setType v).buf = s.buf := rfl
@[simp] theorem State.setType_cmdWord (v : Word) : (s.setType v).cmdWord = s.cmdWord := rfl
@[simp] theorem State.setType_latch (v : Word) : (s.setType v).latch = s.latch := rfl
@[simp] theorem State.setType_crcInternal (v : Word) : (s.setType v).crcInternal = s.crcInternal := rfl
@[simp] theorem State.setType_delay (v : Word) : (s.setType v).delay = s.delay := rfl
@[simp] theorem State.setType_draws (v : Word) : (s.setType v).draws = s.draws := rfl
@[simp] theorem State.setType_inputs (v : Word) : (s.setType v).inputs = s.inputs := rfl
@[simp] theorem State.setType_replies (v : Word) : (s.setType v).replies = s.replies := rfl

/-! ### `setResults` -/

@[simp] theorem State.setResults_params (r : Results) : (s.setResults r).params = s.params := rfl
@[simp] theorem State.setResults_status (r : Results) : (s.setResults r).status = s.status := rfl
@[simp] theorem State.setResults_err (r : Results) : (s.setResults r).err = s.err := rfl
@[simp] theorem State.setResults_opnd (r : Results) : (s.setResults r).opnd = s.opnd := rfl
@[simp] theorem State.setResults_crcState (r : Results) : (s.setResults r).crcState = s.crcState := rfl
@[simp] theorem State.setResults_typeFlags (r : Results) : (s.setResults r).typeFlags = s.typeFlags := rfl
@[simp] theorem State.setResults_res (r : Results) : (s.setResults r).res = r := rfl
@[simp] theorem State.setResults_ct (r : Results) : (s.setResults r).ct = s.ct := rfl
@[simp] theorem State.setResults_buf (r : Results) : (s.setResults r).buf = s.buf := rfl
@[simp] theorem State.setResults_cmdWord (r : Results) : (s.setResults r).cmdWord = s.cmdWord := rfl
@[simp] theorem State.setResults_latch (r : Results) : (s.setResults r).latch = s.latch := rfl
@[simp] theorem State.setResults_crcInternal (r : Results) : (s.setResults r).crcInternal = s.crcInternal := rfl
@[simp] theorem State.setResults_delay (r : Results) : (s.setResults r).delay = s.delay := rfl
@[simp] theorem State.setResults_draws (r : Results) : (s.setResults r).draws = s.draws := rfl
@[simp] theorem State.setResults_inputs (r : Results) : (s.setResults r).inputs = s.inputs := rfl
@[simp] theorem State.setResults_replies (r : Results) : (s.setResults r).replies = s.replies := rfl

/-! ### `setTable` -/

@[simp] theorem State.setTable_params (v : Bool) (l : List Descriptor) : (s.setTable v l).params = s.params := rfl
@[simp] theorem State.setTable_status (v : Bool) (l : List Descriptor) :
    (s.setTable v l).status =
      { s.status with cvalid := v } := rfl
@[simp] theorem State.setTable_err (v : Bool) (l : List Descriptor) : (s.setTable v l).err = s.err := rfl
@[simp] theorem State.setTable_opnd (v : Bool) (l : List Descriptor) : (s.setTable v l).opnd = s.opnd := rfl
@[simp] theorem State.setTable_crcState (v : Bool) (l : List Descriptor) : (s.setTable v l).crcState = s.crcState := rfl
@[simp] theorem State.setTable_typeFlags (v : Bool) (l : List Descriptor) : (s.setTable v l).typeFlags = s.typeFlags := rfl
@[simp] theorem State.setTable_res (v : Bool) (l : List Descriptor) : (s.setTable v l).res = s.res := rfl
@[simp] theorem State.setTable_ct (v : Bool) (l : List Descriptor) : (s.setTable v l).ct = l := rfl
@[simp] theorem State.setTable_buf (v : Bool) (l : List Descriptor) : (s.setTable v l).buf = s.buf := rfl
@[simp] theorem State.setTable_cmdWord (v : Bool) (l : List Descriptor) : (s.setTable v l).cmdWord = s.cmdWord := rfl
@[simp] theorem State.setTable_latch (v : Bool) (l : List Descriptor) : (s.setTable v l).latch = s.latch := rfl
@[simp] theorem State.setTable_crcInternal (v : Bool) (l : List Descriptor) :
    (s.setTable v l).crcInternal =
      s.crcInternal := rfl
@[simp] theorem State.setTable_delay (v : Bool) (l : List Descriptor) : (s.setTable v l).delay = s.delay := rfl
@[simp] theorem State.setTable_draws (v : Bool) (l : List Descriptor) : (s.setTable v l).draws = s.draws := rfl
@[simp] theorem State.setTable_inputs (v : Bool) (l : List Descriptor) : (s.setTable v l).inputs = s.inputs := rfl
@[simp] theorem State.setTable_replies (v : Bool) (l : List Descriptor) : (s.setTable v l).replies = s.replies := rfl

/-! ### `setBuf` -/

@[simp] theorem State.setBuf_params (m : Memory) : (s.setBuf m).params = s.params := rfl
@[simp] theorem State.setBuf_status (m : Memory) : (s.setBuf m).status = s.status := rfl
@[simp] theorem State.setBuf_err (m : Memory) : (s.setBuf m).err = s.err := rfl
@[simp] theorem State.setBuf_opnd (m : Memory) : (s.setBuf m).opnd = s.opnd := rfl
@[simp] theorem State.setBuf_crcState (m : Memory) : (s.setBuf m).crcState = s.crcState := rfl
@[simp] theorem State.setBuf_typeFlags (m : Memory) : (s.setBuf m).typeFlags = s.typeFlags := rfl
@[simp] theorem State.setBuf_res (m : Memory) : (s.setBuf m).res = s.res := rfl
@[simp] theorem State.setBuf_ct (m : Memory) : (s.setBuf m).ct = s.ct := rfl
@[simp] theorem State.setBuf_buf (m : Memory) : (s.setBuf m).buf = m := rfl
@[simp] theorem State.setBuf_cmdWord (m : Memory) : (s.setBuf m).cmdWord = s.cmdWord := rfl
@[simp] theorem State.setBuf_latch (m : Memory) : (s.setBuf m).latch = s.latch := rfl
@[simp] theorem State.setBuf_crcInternal (m : Memory) : (s.setBuf m).crcInternal = s.crcInternal := rfl
@[simp] theorem State.setBuf_delay (m : Memory) : (s.setBuf m).delay = s.delay := rfl
@[simp] theorem State.setBuf_draws (m : Memory) : (s.setBuf m).draws = s.draws := rfl
@[simp] theorem State.setBuf_inputs (m : Memory) : (s.setBuf m).inputs = s.inputs := rfl
@[simp] theorem State.setBuf_replies (m : Memory) : (s.setBuf m).replies = s.replies := rfl

/-! ### `commandStart` -/

@[simp] theorem State.commandStart_params (w : Word) (d : Nat) : (s.commandStart w d).params = s.params := rfl
@[simp] theorem State.commandStart_status (w : Word) (d : Nat) :
    (s.commandStart w d).status =
      { s.status with busy := true, err := false, found := false } := rfl
@[simp] theorem State.commandStart_err (w : Word) (d : Nat) : (s.commandStart w d).err = ErrorRecord.clear := rfl
@[simp] theorem State.commandStart_opnd (w : Word) (d : Nat) : (s.commandStart w d).opnd = s.opnd := rfl
@[simp] theorem State.commandStart_crcState (w : Word) (d : Nat) : (s.commandStart w d).crcState = s.crcState := rfl
@[simp] theorem State.commandStart_typeFlags (w : Word) (d : Nat) : (s.commandStart w d).typeFlags = s.typeFlags := rfl
@[simp] theorem State.commandStart_res (w : Word) (d : Nat) : (s.commandStart w d).res = s.res := rfl
@[simp] theorem State.commandStart_ct (w : Word) (d : Nat) : (s.commandStart w d).ct = s.ct := rfl
@[simp] theorem State.commandStart_buf (w : Word) (d : Nat) : (s.commandStart w d).buf = s.buf := rfl
@[simp] theorem State.commandStart_cmdWord (w : Word) (d : Nat) : (s.commandStart w d).cmdWord = w := rfl
@[simp] theorem State.commandStart_latch (w : Word) (d : Nat) : (s.commandStart w d).latch = s.opnd := rfl
@[simp] theorem State.commandStart_crcInternal (w : Word) (d : Nat) : (s.commandStart w d).crcInternal = s.crcInternal := rfl
@[simp] theorem State.commandStart_delay (w : Word) (d : Nat) : (s.commandStart w d).delay = d := rfl
@[simp] theorem State.commandStart_draws (w : Word) (d : Nat) : (s.commandStart w d).draws = s.draws + 1 := rfl
@[simp] theorem State.commandStart_inputs (w : Word) (d : Nat) : (s.commandStart w d).inputs = s.inputs := rfl
@[simp] theorem State.commandStart_replies (w : Word) (d : Nat) : (s.commandStart w d).replies = s.replies := rfl

/-! ### `finish` -/

@[simp] theorem State.finish_params : (s.finish).params = s.params := rfl
@[simp] theorem State.finish_status : (s.finish).status = { s.status with busy := false } := rfl
@[simp] theorem State.finish_err : (s.finish).err = s.err := rfl
@[simp] theorem State.finish_opnd : (s.finish).opnd = s.opnd := rfl
@[simp] theorem State.finish_crcState : (s.finish).crcState = s.crcState := rfl
@[simp] theorem State.finish_typeFlags : (s.finish).typeFlags = s.typeFlags := rfl
@[simp] theorem State.finish_res : (s.finish).res = s.res := rfl
@[simp] theorem State.finish_ct : (s.finish).ct = s.ct := rfl
@[simp] theorem State.finish_buf : (s.finish).buf = s.buf := rfl
@[simp] theorem State.finish_cmdWord : (s.finish).cmdWord = s.cmdWord := rfl
@[simp] theorem State.finish_latch : (s.finish).latch = s.latch := rfl
@[simp] theorem State.finish_crcInternal : (s.finish).crcInternal = s.crcInternal := rfl
@[simp] theorem State.finish_delay : (s.finish).delay = s.delay := rfl
@[simp] theorem State.finish_draws : (s.finish).draws = s.draws := rfl
@[simp] theorem State.finish_inputs : (s.finish).inputs = s.inputs := rfl
@[simp] theorem State.finish_replies : (s.finish).replies = s.replies := rfl

/-! ### `raise` -/

@[simp] theorem State.raise_params (e : ErrorRecord) : (s.raise e).params = s.params := rfl
@[simp] theorem State.raise_status (e : ErrorRecord) :
    (s.raise e).status =
      { s.status with err := true, busy := false } := rfl
@[simp] theorem State.raise_err (e : ErrorRecord) : (s.raise e).err = e := rfl
@[simp] theorem State.raise_opnd (e : ErrorRecord) : (s.raise e).opnd = s.opnd := rfl
@[simp] theorem State.raise_crcState (e : ErrorRecord) : (s.raise e).crcState = s.crcState := rfl
@[simp] theorem State.raise_typeFlags (e : ErrorRecord) : (s.raise e).typeFlags = s.typeFlags := rfl
@[simp] theorem State.raise_res (e : ErrorRecord) : (s.raise e).res = s.res := rfl
@[simp] theorem State.raise_ct (e : ErrorRecord) : (s.raise e).ct = s.ct := rfl
@[simp] theorem State.raise_buf (e : ErrorRecord) : (s.raise e).buf = s.buf := rfl
@[simp] theorem State.raise_cmdWord (e : ErrorRecord) : (s.raise e).cmdWord = s.cmdWord := rfl
@[simp] theorem State.raise_latch (e : ErrorRecord) : (s.raise e).latch = s.latch := rfl
@[simp] theorem State.raise_crcInternal (e : ErrorRecord) : (s.raise e).crcInternal = s.crcInternal := rfl
@[simp] theorem State.raise_delay (e : ErrorRecord) : (s.raise e).delay = s.delay := rfl
@[simp] theorem State.raise_draws (e : ErrorRecord) : (s.raise e).draws = s.draws := rfl
@[simp] theorem State.raise_inputs (e : ErrorRecord) : (s.raise e).inputs = s.inputs := rfl
@[simp] theorem State.raise_replies (e : ErrorRecord) : (s.raise e).replies = s.replies := rfl

/-! ### `report` -/

@[simp] theorem State.report_params (e : Descriptor) (j : Nat) : (s.report e j).params = s.params := rfl
@[simp] theorem State.report_status (e : Descriptor) (j : Nat) : (s.report e j).status = s.status := rfl
@[simp] theorem State.report_err (e : Descriptor) (j : Nat) : (s.report e j).err = s.err := rfl
@[simp] theorem State.report_opnd (e : Descriptor) (j : Nat) : (s.report e j).opnd = s.opnd := rfl
@[simp] theorem State.report_crcState (e : Descriptor) (j : Nat) : (s.report e j).crcState = s.crcState := rfl
@[simp] theorem State.report_typeFlags (e : Descriptor) (j : Nat) : (s.report e j).typeFlags = typeFlagsOf e.type := rfl
@[simp] theorem State.report_res (e : Descriptor) (j : Nat) :
    (s.report e j).res =
      { s.res with len := e.len, type := e.type, crc := e.crc, dataAddr := e.addr, index := BitVec.ofNat 32 j } := rfl
@[simp] theorem State.report_ct (e : Descriptor) (j : Nat) : (s.report e j).ct = s.ct := rfl
@[simp] theorem State.report_buf (e : Descriptor) (j : Nat) : (s.report e j).buf = s.buf := rfl
@[simp] theorem State.report_cmdWord (e : Descriptor) (j : Nat) : (s.report e j).cmdWord = s.cmdWord := rfl
@[simp] theorem State.report_latch (e : Descriptor) (j : Nat) : (s.report e j).latch = s.latch := rfl
@[simp] theorem State.report_crcInternal (e : Descriptor) (j : Nat) : (s.report e j).crcInternal = s.crcInternal := rfl
@[simp] theorem State.report_delay (e : Descriptor) (j : Nat) : (s.report e j).delay = s.delay := rfl
@[simp] theorem State.report_draws (e : Descriptor) (j : Nat) : (s.report e j).draws = s.draws := rfl
@[simp] theorem State.report_inputs (e : Descriptor) (j : Nat) : (s.report e j).inputs = s.inputs := rfl
@[simp] theorem State.report_replies (e : Descriptor) (j : Nat) : (s.report e j).replies = s.replies := rfl

/-! ### `settle` -/

@[simp] theorem State.settle_params : (s.settle).params = s.params := rfl
@[simp] theorem State.settle_status : (s.settle).status = s.status := rfl
@[simp] theorem State.settle_err : (s.settle).err = s.err := rfl
@[simp] theorem State.settle_opnd : (s.settle).opnd = s.opnd := rfl
@[simp] theorem State.settle_crcState : (s.settle).crcState = s.crcState := rfl
@[simp] theorem State.settle_typeFlags : (s.settle).typeFlags = s.typeFlags := rfl
@[simp] theorem State.settle_res : (s.settle).res = s.res := rfl
@[simp] theorem State.settle_ct : (s.settle).ct = s.ct := rfl
@[simp] theorem State.settle_buf : (s.settle).buf = s.buf := rfl
@[simp] theorem State.settle_cmdWord : (s.settle).cmdWord = s.cmdWord := rfl
@[simp] theorem State.settle_latch : (s.settle).latch = s.latch := rfl
@[simp] theorem State.settle_crcInternal : (s.settle).crcInternal = Config.internalCrc s.draws := rfl
@[simp] theorem State.settle_delay : (s.settle).delay = s.delay := rfl
@[simp] theorem State.settle_draws : (s.settle).draws = s.draws := rfl
@[simp] theorem State.settle_inputs : (s.settle).inputs = s.inputs := rfl
@[simp] theorem State.settle_replies : (s.settle).replies = s.replies := rfl

/-! ### `reply` -/

@[simp] theorem State.reply_params (r : Reply) : (s.reply r).params = s.params := rfl
@[simp] theorem State.reply_status (r : Reply) : (s.reply r).status = s.status := rfl
@[simp] theorem State.reply_err (r : Reply) : (s.reply r).err = s.err := rfl
@[simp] theorem State.reply_opnd (r : Reply) : (s.reply r).opnd = s.opnd := rfl
@[simp] theorem State.reply_crcState (r : Reply) : (s.reply r).crcState = s.crcState := rfl
@[simp] theorem State.reply_typeFlags (r : Reply) : (s.reply r).typeFlags = s.typeFlags := rfl
@[simp] theorem State.reply_res (r : Reply) : (s.reply r).res = s.res := rfl
@[simp] theorem State.reply_ct (r : Reply) : (s.reply r).ct = s.ct := rfl
@[simp] theorem State.reply_buf (r : Reply) : (s.reply r).buf = s.buf := rfl
@[simp] theorem State.reply_cmdWord (r : Reply) : (s.reply r).cmdWord = s.cmdWord := rfl
@[simp] theorem State.reply_latch (r : Reply) : (s.reply r).latch = s.latch := rfl
@[simp] theorem State.reply_crcInternal (r : Reply) : (s.reply r).crcInternal = s.crcInternal := rfl
@[simp] theorem State.reply_delay (r : Reply) : (s.reply r).delay = s.delay := rfl
@[simp] theorem State.reply_draws (r : Reply) : (s.reply r).draws = s.draws := rfl
@[simp] theorem State.reply_inputs (r : Reply) : (s.reply r).inputs = s.inputs := rfl
@[simp] theorem State.reply_replies (r : Reply) : (s.reply r).replies = r :: s.replies := rfl

end Sys2Proof.Machine
end

