-- ==== Sys2Proof/Laws/Ops.lean ====
section
/-! SUPPORT. What the shared operations of Machine/Ops.lean can do: one lemma for each way an operation can end. -/

namespace Sys2Proof.Machine

theorem State.holds_iff (s : State) (a : Nat) (bs : List Byte) :
    s.Holds a bs ↔ s.buf.readRange a bs.length = some bs := by
  rw [Memory.readRange_eq_some]; simp [State.Holds]

theorem State.holds_nil (s : State) (a : Nat) : s.Holds a [] := fun k hk => by simp at hk

theorem State.holds_append (s : State) (a : Nat) (x y : List Byte) :
    s.Holds a (x ++ y) ↔ s.Holds a x ∧ s.Holds (a + x.length) y := by
  simp only [State.Holds, List.length_append]
  constructor
  · intro h
    refine ⟨fun k hk => ?_, fun k hk => ?_⟩
    · rw [h k (by omega), List.getElem?_append_left hk]
    · rw [Nat.add_assoc, h (x.length + k) (by omega), List.getElem?_append_right (by omega), Nat.add_sub_cancel_left]
  · rintro ⟨h1, h2⟩ k hk
    by_cases hx : k < x.length
    · rw [h1 k hx, List.getElem?_append_left hx]
    · have := h2 (k - x.length) (by omega)
      rw [show a + x.length + (k - x.length) = a + k by omega] at this
      rw [this, List.getElem?_append_right (by omega)]

/-- Two byte sequences of one length that stand at one place are the same. -/
theorem State.holds_unique {s : State} {a : Nat} {x y : List Byte} (hl : x.length = y.length) (hx : s.Holds a x)
    (hy : s.Holds a y) : x = y := by
  rw [State.holds_iff] at hx hy
  rw [hl, hy] at hx
  exact (Option.some.inj hx).symm

/-- What stands in a range depends only on the bytes of the range. -/
theorem State.holds_congr {s u : State} {a : Nat} {bs : List Byte} (hs : s.Holds a bs)
    (h : ∀ x, a ≤ x → x < a + bs.length → u.buf.read x = s.buf.read x) : u.Holds a bs := fun k hk => by
  rw [h _ (by omega) (by omega)]; exact hs k hk

/-- After a range is written it holds what was written. -/
theorem State.holds_written {s t : State} {a : Nat} {bs : List Byte} (h : t.buf = s.buf.writeRange a bs) :
    t.Holds a bs := fun k hk => by
  rw [h, Memory.read_writeRange, if_pos (by omega), Nat.add_sub_cancel_left]

theorem State.withBytes_of_holds {s : State} {a n : Nat} {d : List Byte} (k : List Byte → Result)
    (hl : d.length = n) (h : s.Holds a d) : s.withBytes a n k = k d := by
  subst hl
  rw [State.withBytes, (State.holds_iff s a d).mp h]

theorem State.withBytes_of_unwritten {s : State} {a n : Nat} (k : List Byte → Result) (h : s.Unwritten a n) :
    s.withBytes a n k = .fault .commandReadUnwritten := by
  rw [State.withBytes, (Memory.readRange_eq_none s.buf a n).mpr h]

/-- MemRead either meets an unwritten byte and faults, or goes on with the bytes that stand in the range. -/
theorem State.withBytes_cases (s : State) (a n : Nat) (k : List Byte → Result) :
    (s.withBytes a n k = .fault .commandReadUnwritten ∧ s.Unwritten a n) ∨
    ∃ d : List Byte, d.length = n ∧ s.Holds a d ∧ s.withBytes a n k = k d := by
  rcases h : s.buf.readRange a n with _ | d
  · have hu : s.Unwritten a n := (Memory.readRange_eq_none s.buf a n).mp h
    exact .inl ⟨s.withBytes_of_unwritten k hu, hu⟩
  · have hl := Memory.length_of_readRange h
    have hh : s.Holds a d := (State.holds_iff s a d).mpr (by rw [hl, h])
    exact .inr ⟨d, hl, hh, State.withBytes_of_holds k hl hh⟩

theorem State.withContainer_cases (s : State) (k : Result) :
    (s.status.cvalid = false ∧ s.withContainer k = .next (s.raise (errorAt .noContainer .operand 0 0))) ∨
    (s.status.cvalid = true ∧ s.withContainer k = k) := by
  rcases h : s.status.cvalid
  · exact .inl ⟨rfl, by simp [State.withContainer, h, State.fail]⟩
  · exact .inr ⟨rfl, by simp [State.withContainer, h]⟩

end Sys2Proof.Machine
end

