-- ==== Sys2Proof/Laws/Commands.lean ====
section
/-! SUPPORT. One inversion lemma per command: everything its meaning can do when it answers. A failed command ends in
`s.raise e` (or `parseFailed`), a successful one in the state its rule gives, and the only fault is a read of an unwritten
byte. -/

namespace Sys2Proof.Machine

variable {s : State} {r : Result}

/-- The error is one a command may raise: neither code 0 nor NotUtf8 (R220, R221). -/
def ErrorRecord.real (e : ErrorRecord) : Prop := e.code ≠ .none ∧ e.code ≠ .notUtf8

theorem real_errorAt {c : ErrCode} {f : ErrField} {o i : Nat} (h : c ≠ .none) (h' : c ≠ .notUtf8) :
    (errorAt c f o i).real := ⟨h, h'⟩

theorem execNop_cases (h : execNop s = r) : r = .next s.finish := h.symm

theorem execCrcInit_cases (h : execCrcInit s = r) : r = .next (s.setCrcState 0xFFFFFFFF).finish := h.symm

theorem execCrcUpdate_cases (h : execCrcUpdate s = r) :
    (∃ e, e.real ∧ r = .next (s.raise e)) ∨
    (r = .fault .commandReadUnwritten ∧ s.InRange s.src s.len ∧ s.Unwritten s.src s.len) ∨
    ∃ v, r = .next (s.setCrcState v).finish := by
  unfold execCrcUpdate at h
  split at h <;> rename_i hr
  · exact .inl ⟨_, real_errorAt (by decide) (by decide), h.symm⟩
  · rcases s.withBytes_cases s.src s.len fun d => (s.setCrcState (crcFold s.crcState d)).done with ⟨hf, hu⟩ | ⟨d, -, -, hk⟩
    · exact .inr (.inl ⟨h.symm.trans hf, not_not.mp hr, hu⟩)
    · exact .inr (.inr ⟨_, h.symm.trans hk⟩)

theorem execCrcUpdateByte_cases (h : execCrcUpdateByte s = r) : ∃ v, r = .next (s.setCrcState v).finish := ⟨_, h.symm⟩

theorem execCrcCompute_cases (h : execCrcCompute s = r) :
    (∃ e, e.real ∧ r = .next (s.raise e)) ∨
    (r = .fault .commandReadUnwritten ∧ s.InRange s.src s.len ∧ s.Unwritten s.src s.len) ∨
    ∃ v, r = .next (s.setCrcState v).finish := by
  unfold execCrcCompute at h
  split at h <;> rename_i hr
  · exact .inl ⟨_, real_errorAt (by decide) (by decide), h.symm⟩
  · rcases s.withBytes_cases s.src s.len fun d => (s.setCrcState (crcFold 0xFFFFFFFF d)).done with ⟨hf, hu⟩ | ⟨d, -, -, hk⟩
    · exact .inr (.inl ⟨h.symm.trans hf, not_not.mp hr, hu⟩)
    · exact .inr (.inr ⟨_, h.symm.trans hk⟩)

theorem execTypeParse_cases (h : execTypeParse s = r) :
    (∃ e, e.real ∧ r = .next (s.raise e)) ∨
    (typeOk s.ty = true ∧ r = .next (s.setTypeFlags (typeFlagsOf s.ty)).finish) := by
  unfold execTypeParse at h
  split_ifs at h with ht
  · exact .inl ⟨_, real_errorAt (by decide) (by decide), h.symm⟩
  · exact .inr ⟨by simpa using ht, h.symm⟩

theorem execTypeParseText_cases (h : execTypeParseText s = r) :
    (∃ e, e.real ∧ r = .next (s.raise e)) ∨
    (r = .fault .commandReadUnwritten ∧ s.InRange s.src s.len ∧ s.Unwritten s.src s.len) ∨
    ∃ t, typeOk t = true ∧ r = .next ((s.setType t).setTypeFlags (typeFlagsOf t)).finish := by
  unfold execTypeParseText at h
  split at h <;> rename_i hr
  · exact .inl ⟨_, real_errorAt (by decide) (by decide), h.symm⟩
  split at h <;> rename_i hl
  · exact .inl ⟨_, real_errorAt (by decide) (by decide), h.symm⟩
  · rcases s.withBytes_cases s.src 4 _ with ⟨hf, hu⟩ | ⟨d, -, -, hk⟩
    · exact .inr (.inl ⟨h.symm.trans hf, not_not.mp hr, by rw [not_not.mp hl]; exact hu⟩)
    · rw [hk] at h
      simp only at h
      split at h <;> rename_i ht
      · exact .inl ⟨_, real_errorAt (by decide) (by decide), h.symm⟩
      · exact .inr (.inr ⟨_, by simpa using ht, h.symm⟩)

theorem execChunkParse_cases (h : execChunkParse s = r) :
    (∃ e, e.real ∧ r = .next (s.raise e)) ∨
    (r = .fault .commandReadUnwritten ∧ s.InRange s.src s.len ∧ s.Unwritten s.src s.len) ∨
    ∃ (b : List Byte) (d : Descriptor), s.InRange s.src s.len ∧ b.length = s.len ∧ s.Holds s.src b ∧
      parseFrame s.src b = .ok d ∧
      r = .next ((s.setResults { s.res with
        len := d.len
        type := d.type
        crc := d.crc
        dataAddr := d.addr
        outLen := BitVec.ofNat 32 (12 + d.len.toNat) }).setTypeFlags (typeFlagsOf d.type)).finish := by
  unfold execChunkParse at h
  split at h <;> rename_i hr
  · exact .inl ⟨_, real_errorAt (by decide) (by decide), h.symm⟩
  · rcases s.withBytes_cases s.src s.len _ with ⟨hf, hu⟩ | ⟨b, hl, hh, hk⟩
    · exact .inr (.inl ⟨h.symm.trans hf, not_not.mp hr, hu⟩)
    · rw [hk] at h
      rcases hp : parseFrame s.src b with e | d
      · rw [hp] at h; exact .inl ⟨e, parseFrame_error_code hp, h.symm⟩
      · rw [hp] at h; exact .inr (.inr ⟨b, d, not_not.mp hr, hl, hh, hp, h.symm⟩)

theorem chunkBuildCheck_none (h : chunkBuildCheck s = none) : typeOk s.ty = true ∧ s.InRange s.src s.len ∧
    s.InRange s.dst (12 + s.len) ∧ ¬ Overlaps s.src s.len s.dst (12 + s.len) := by
  unfold chunkBuildCheck at h
  split_ifs at h with h1 h2 h3 h4
  exact ⟨by simpa using h1, h2, h3, h4⟩

theorem chunkBuildCheck_some {e : ErrorRecord} (h : chunkBuildCheck s = some e) : e.real := by
  unfold chunkBuildCheck at h
  split_ifs at h <;> (injection h with h; subst h; exact real_errorAt (by decide) (by decide))

theorem execChunkBuild_cases (h : execChunkBuild s = r) :
    (∃ e, e.real ∧ r = .next (s.raise e)) ∨
    (r = .fault .commandReadUnwritten ∧ s.InRange s.src s.len ∧ s.Unwritten s.src s.len) ∨
    ∃ d : List Byte, chunkBuildCheck s = none ∧ d.length = s.len ∧ s.Holds s.src d ∧
      r = .next (((s.setBuf (s.buf.writeRange s.dst
          (frameBytes s.latch.srcLen s.ty d (crc32 (be32Bytes s.ty ++ d))))).setResults { s.res with
        len := s.latch.srcLen
        type := s.ty
        crc := crc32 (be32Bytes s.ty ++ d)
        dataAddr := BitVec.ofNat 32 (s.dst + 8)
        outLen := BitVec.ofNat 32 (12 + s.len) }).setTypeFlags (typeFlagsOf s.ty)).finish := by
  unfold execChunkBuild at h
  rcases hc : chunkBuildCheck s with _ | e
  · rw [hc] at h
    rcases s.withBytes_cases s.src s.len _ with ⟨hf, hu⟩ | ⟨d, hl, hh, hk⟩
    · exact .inr (.inl ⟨h.symm.trans hf, (chunkBuildCheck_none hc).2.1, hu⟩)
    · exact .inr (.inr ⟨d, rfl, hl, hh, h.symm.trans hk⟩)
  · rw [hc] at h; exact .inl ⟨e, chunkBuildCheck_some hc, h.symm⟩

theorem parseContainer_error_code {cap src : Nat} {b : List Byte} {e : ErrorRecord}
    (h : parseContainer cap src b = .error e) : e.real := by
  unfold parseContainer at h
  split_ifs at h
  · injection h with h; subst h; exact real_errorAt (by decide) (by decide)
  · exact parseChunks_error_code h

theorem execContParse_cases (h : execContParse s = r) :
    (∃ e, e.real ∧ r = .next (s.parseFailed e)) ∨
    (r = .fault .commandReadUnwritten ∧ s.InRange s.src s.len ∧ s.Unwritten s.src s.len) ∨
    ∃ cs : List Chunk, (∀ c ∈ cs, c.ok) ∧ cs.length ≤ s.params.maxChunks.toNat ∧ s.InRange s.src s.len ∧
      s.len = 8 + (framesOf cs).length ∧ s.Holds s.src (signature ++ framesOf cs) ∧
      r = .next ((s.setTable true (tableOf (s.src + 8) cs)).setResults { s.res with outLen := s.latch.srcLen }).finish := by
  unfold execContParse at h
  split at h <;> rename_i hr
  · exact .inl ⟨_, real_errorAt (by decide) (by decide), h.symm⟩
  · rcases s.withBytes_cases s.src s.len _ with ⟨hf, hu⟩ | ⟨b, hl, hh, hk⟩
    · exact .inr (.inl ⟨h.symm.trans hf, not_not.mp hr, hu⟩)
    · rw [hk] at h
      rcases hp : parseContainer s.params.maxChunks.toNat s.src b with e | tbl
      · rw [hp] at h; exact .inl ⟨e, parseContainer_error_code hp, h.symm⟩
      · rw [hp] at h
        obtain ⟨cs, hok, hn, rfl, rfl⟩ := parseContainer_ok_iff.mp hp
        refine .inr (.inr ⟨cs, hok, hn, not_not.mp hr, ?_, hh, h.symm⟩)
        rw [← hl, List.length_append]; rfl

theorem contSerializeCheck_none (h : contSerializeCheck s = none) : s.status.cvalid = true ∧
    s.InRange s.dst (imageLen s.ct) ∧ ∀ e ∈ s.ct, ¬ Overlaps s.dst (imageLen s.ct) e.addr.toNat e.len.toNat := by
  unfold contSerializeCheck at h
  split_ifs at h with h1 h2 h3
  refine ⟨by simpa using h1, h2, fun e he ho => h3 ?_⟩
  exact List.any_eq_true.mpr ⟨e, he, by simpa using ho⟩

theorem contSerializeCheck_some {e : ErrorRecord} (h : contSerializeCheck s = some e) : e.real := by
  unfold contSerializeCheck at h
  split_ifs at h <;> (injection h with h; subst h; exact real_errorAt (by decide) (by decide))

theorem framesImage_none {m : Memory} {l : List Descriptor} (h : framesImage m l = none) :
    ∃ e ∈ l, m.readRange e.addr.toNat e.len.toNat = none := by
  induction l with
  | nil => simp [framesImage] at h
  | cons e l ih =>
    simp only [framesImage, descriptorBytes] at h
    rcases hr : m.readRange e.addr.toNat e.len.toNat with _ | d
    · exact ⟨e, by simp, hr⟩
    · rcases hi : framesImage m l with _ | y
      · obtain ⟨x, hx, hxr⟩ := ih hi; exact ⟨x, List.mem_cons_of_mem _ hx, hxr⟩
      · simp [hr, hi] at h

theorem execContSerialize_cases (h : execContSerialize s = r) :
    (∃ e, e.real ∧ r = .next (s.raise e)) ∨
    (r = .fault .commandReadUnwritten ∧ ∃ e ∈ s.ct, s.Unwritten e.addr.toNat e.len.toNat) ∨
    ∃ frames : List Byte, contSerializeCheck s = none ∧ framesImage s.buf s.ct = some frames ∧
      r = .next ((s.setBuf (s.buf.writeRange s.dst (signature ++ frames))).setResults { s.res with
        outLen := BitVec.ofNat 32 (imageLen s.ct) }).finish := by
  unfold execContSerialize at h
  rcases hc : contSerializeCheck s with _ | e
  · rcases hi : framesImage s.buf s.ct with _ | frames
    · rw [hc, hi] at h
      obtain ⟨e, he, hr⟩ := framesImage_none hi
      exact .inr (.inl ⟨h.symm, e, he, (Memory.readRange_eq_none ..).mp hr⟩)
    · rw [hc, hi] at h; exact .inr (.inr ⟨frames, rfl, rfl, h.symm⟩)
  · rw [hc] at h; exact .inl ⟨e, contSerializeCheck_some hc, h.symm⟩

theorem execContAppend_cases (h : execContAppend s = r) :
    (∃ e, e.real ∧ r = .next (s.raise e)) ∨
    (r = .fault .commandReadUnwritten ∧ s.InRange s.src s.len ∧ s.Unwritten s.src s.len) ∨
    ∃ e : Descriptor, s.status.cvalid = true ∧ typeOk s.ty = true ∧ s.InRange s.src s.len ∧
      s.ct.length ≠ s.params.maxChunks.toNat ∧ e.type = s.ty ∧ e.addr = s.latch.srcAddr ∧ e.len = s.latch.srcLen ∧
      r = .next ((s.setTable true (s.ct ++ [e])).report e s.ct.length).finish := by
  unfold execContAppend at h
  rcases s.withContainer_cases _ with ⟨-, hw⟩ | ⟨hv, hw⟩
  · exact .inl ⟨_, real_errorAt (by decide) (by decide), h.symm.trans hw⟩
  · rw [hw] at h
    split at h <;> rename_i ht
    · exact .inl ⟨_, real_errorAt (by decide) (by decide), h.symm⟩
    split at h <;> rename_i hr
    · exact .inl ⟨_, real_errorAt (by decide) (by decide), h.symm⟩
    split at h <;> rename_i hn
    · exact .inl ⟨_, real_errorAt (by decide) (by decide), h.symm⟩
    · rcases s.withBytes_cases s.src s.len _ with ⟨hf, hu⟩ | ⟨d, -, -, hk⟩
      · exact .inr (.inl ⟨h.symm.trans hf, not_not.mp hr, hu⟩)
      · exact .inr (.inr ⟨_, hv, by simpa using ht, not_not.mp hr, hn, rfl, rfl, rfl, h.symm.trans hk⟩)

/-- `findFirst` answers with the first match and its index. -/
theorem findFirst_some {ty : Word} {k j : Nat} {l : List Descriptor} {e : Descriptor}
    (h : findFirst ty k l = some (j, e)) :
    ∃ x y, l = x ++ e :: y ∧ j = k + x.length ∧ e.type = ty ∧ ∀ z ∈ x, z.type ≠ ty := by
  induction l generalizing k with
  | nil => simp [findFirst] at h
  | cons a l ih =>
    rw [findFirst] at h
    split_ifs at h with ha
    · simp only [Option.some.injEq, Prod.mk.injEq] at h
      obtain ⟨rfl, rfl⟩ := h
      exact ⟨[], l, rfl, rfl, ha, by simp⟩
    · obtain ⟨x, y, rfl, rfl, he, hx⟩ := ih h
      refine ⟨a :: x, y, rfl, by simp only [List.length_cons]; omega, he, fun z hz => ?_⟩
      rcases List.mem_cons.mp hz with rfl | hz
      · exact ha
      · exact hx z hz

theorem findFirst_append {ty : Word} {k : Nat} {x y : List Descriptor} {e : Descriptor} (he : e.type = ty)
    (hx : ∀ z ∈ x, z.type ≠ ty) : findFirst ty k (x ++ e :: y) = some (k + x.length, e) := by
  induction x generalizing k with
  | nil => simp [findFirst, he]
  | cons a x ih =>
    rw [List.cons_append, findFirst, if_neg (hx a (by simp)), ih (fun z hz => hx z (List.mem_cons_of_mem _ hz))]
    simp only [List.length_cons]
    congr 2; omega

theorem findFirst_none {ty : Word} {k : Nat} {l : List Descriptor} : findFirst ty k l = none ↔ ∀ e ∈ l, e.type ≠ ty := by
  induction l generalizing k with
  | nil => simp [findFirst]
  | cons a l ih =>
    rw [findFirst]
    split_ifs with ha
    · simp [ha]
    · rw [ih]; simp [ha]

theorem execContFind_cases (h : execContFind s = r) :
    (∃ e, e.real ∧ r = .next (s.raise e)) ∨
    (s.status.cvalid = true ∧ r = .next s.finish) ∨
    ∃ (e : Descriptor) (j : Nat), s.status.cvalid = true ∧ e ∈ s.ct ∧ r = .next ((s.setFound true).report e j).finish := by
  unfold execContFind at h
  rcases s.withContainer_cases _ with ⟨-, hw⟩ | ⟨hv, hw⟩
  · exact .inl ⟨_, real_errorAt (by decide) (by decide), h.symm.trans hw⟩
  · rw [hw] at h
    rcases hf : findFirst s.ty 0 s.ct with _ | ⟨j, e⟩
    · rw [hf] at h; exact .inr (.inl ⟨hv, h.symm⟩)
    · rw [hf] at h
      obtain ⟨x, y, hl, -⟩ := findFirst_some hf
      exact .inr (.inr ⟨e, j, hv, by simp [hl], h.symm⟩)

theorem execContRemove_cases (h : execContRemove s = r) :
    (∃ e, e.real ∧ r = .next (s.raise e)) ∨
    ∃ (e : Descriptor) (x y : List Descriptor), s.status.cvalid = true ∧ s.ct = x ++ e :: y ∧
      r = .next ((s.setTable true (x ++ y)).report e x.length).finish := by
  unfold execContRemove at h
  rcases s.withContainer_cases _ with ⟨-, hw⟩ | ⟨hv, hw⟩
  · exact .inl ⟨_, real_errorAt (by decide) (by decide), h.symm.trans hw⟩
  · rw [hw] at h
    rcases hf : findFirst s.ty 0 s.ct with _ | ⟨j, e⟩
    · rw [hf] at h; exact .inl ⟨_, real_errorAt (by decide) (by decide), h.symm⟩
    · rw [hf] at h
      obtain ⟨x, y, hl, hj, -⟩ := findFirst_some hf
      refine .inr ⟨e, x, y, hv, hl, ?_⟩
      rw [Nat.zero_add] at hj
      subst hj
      have : s.ct.eraseIdx x.length = x ++ y := by rw [hl]; simp [List.eraseIdx_append_of_length_le]
      simp only [this] at h
      exact h.symm

theorem execContEntry_cases (h : execContEntry s = r) :
    (∃ e, e.real ∧ r = .next (s.raise e)) ∨
    ∃ e : Descriptor, s.status.cvalid = true ∧ s.ct[s.op.toNat]? = some e ∧ r = .next (s.report e s.op.toNat).finish := by
  unfold execContEntry at h
  rcases s.withContainer_cases _ with ⟨-, hw⟩ | ⟨hv, hw⟩
  · exact .inl ⟨_, real_errorAt (by decide) (by decide), h.symm.trans hw⟩
  · rw [hw] at h
    rcases hf : s.ct[s.op.toNat]? with _ | e
    · rw [hf] at h; exact .inl ⟨_, real_errorAt (by decide) (by decide), h.symm⟩
    · rw [hf] at h; exact .inr ⟨e, hv, rfl, h.symm⟩

end Sys2Proof.Machine
end

