-- ==== Sys2Proof/Laws/Step.lean ====
section
/-! SUPPORT. What one step can be, and how runs unfold step by step (44_control.md R211 to R213). -/

namespace Sys2Proof.Machine

@[simp] theorem run_zero (s : State) : Sys2Proof.core.run 0 s = .next s := rfl

/-- A run of any machine whose first step answers next goes on from there. -/
theorem coreRun_next (M : Host.Core) {s t : M.State} {k : Nat} (h : M.step s = .next t) : M.run (k + 1) s = M.run k t := by
  rw [Host.Core.run]
  rw [h]

/-- One step is a run of one step. -/
theorem coreRun_one (M : Host.Core) (s : M.State) : M.run 1 s = M.step s := by
  rw [Host.Core.run]
  rcases M.step s <;> rfl

theorem run_one (s : State) : Sys2Proof.core.run 1 s = step s := coreRun_one Sys2Proof.core s

theorem run_next {s t : State} {k : Nat} (h : step s = .next t) :
    Sys2Proof.core.run (k + 1) s = Sys2Proof.core.run k t := coreRun_next Sys2Proof.core h

/-- An idle block takes the host's next operation. -/
theorem step_idle {s : State} (hb : s.status.busy = false) : step s = hostTurn s := by
  simp [step, advance, hb]

/-- A busy block whose delay is used up completes its command. -/
theorem step_complete {s : State} (hb : s.status.busy = true) (hd : s.delay = 0) : step s = complete s := by
  simp [step, advance, hb, hd]

/-- A busy block whose delay lasts stays busy one step longer, and the host may act. -/
theorem step_wait {s : State} {d : Nat} (hb : s.status.busy = true) (hd : s.delay = d + 1) :
    step s = hostTurn { s with delay := d } := by
  simp [step, advance, hb, hd]

theorem hostTurn_nil {s : State} (h : s.inputs = []) : hostTurn s = .next s := by
  simp [hostTurn, h]

theorem hostTurn_cons {s : State} {op : HostOp} {rest : List HostOp} (h : s.inputs = op :: rest) :
    hostTurn s = hostAccess { s with inputs := rest } op := by
  simp [hostTurn, h]

/-- The completing step on a legal word. -/
theorem complete_ok {s : State} {i : Instr} (h : decode s.cmdWord = .ok i) : complete s = settled (exec i s) := by
  simp [complete, h]

/-- The completing step on an illegal word (R82). -/
theorem complete_error {s : State} {e : DecodeError} (h : decode s.cmdWord = .error e) :
    complete s = .next (s.raise (errorAt .illegalCommand .none 0x0C 0)).settle := by
  simp [complete, h, State.fail, settled]

/-- A command that answers next leaves BUSY = 0 (R212). -/
theorem exec_busy {i : Instr} {s t : State} (h : exec i s = .next t) : t.status.busy = false := by
  cases i <;> simp only [exec] at h
  · cases execNop_cases h; rfl
  · cases execCrcInit_cases h; rfl
  · rcases execCrcUpdate_cases h with ⟨e, -, h⟩ | ⟨h, -⟩ | ⟨_, h⟩ <;> cases h <;> rfl
  · rcases execCrcUpdateByte_cases h with ⟨_, h⟩; cases h; rfl
  · rcases execCrcCompute_cases h with ⟨e, -, h⟩ | ⟨h, -⟩ | ⟨_, h⟩ <;> cases h <;> rfl
  · rcases execTypeParse_cases h with ⟨e, -, h⟩ | ⟨-, h⟩ <;> cases h <;> rfl
  · rcases execTypeParseText_cases h with ⟨e, -, h⟩ | ⟨h, -⟩ | ⟨_, -, h⟩ <;> cases h <;> rfl
  · rcases execChunkParse_cases h with ⟨e, -, h⟩ | ⟨h, -⟩ | ⟨_, _, -, -, -, -, h⟩ <;> cases h <;> rfl
  · rcases execChunkBuild_cases h with ⟨e, -, h⟩ | ⟨h, -⟩ | ⟨_, -, -, -, h⟩ <;> cases h <;> rfl
  · rcases execContParse_cases h with ⟨e, -, h⟩ | ⟨h, -⟩ | ⟨_, -, -, -, -, -, h⟩ <;> cases h <;> rfl
  · rcases execContSerialize_cases h with ⟨e, -, h⟩ | ⟨h, -⟩ | ⟨_, -, -, h⟩ <;> cases h <;> rfl
  · rcases execContAppend_cases h with ⟨e, -, h⟩ | ⟨h, -⟩ | ⟨_, -, -, -, -, -, -, -, h⟩ <;> cases h <;> rfl
  · rcases execContFind_cases h with ⟨e, -, h⟩ | ⟨-, h⟩ | ⟨_, _, -, -, h⟩ <;> cases h <;> rfl
  · rcases execContRemove_cases h with ⟨e, -, h⟩ | ⟨_, _, _, -, -, h⟩ <;> cases h <;> rfl
  · rcases execContEntry_cases h with ⟨e, -, h⟩ | ⟨_, -, -, h⟩ <;> cases h <;> rfl

/-- What exists only in the model is no command's business. -/
theorem exec_keeps {i : Instr} {s t : State} (h : exec i s = .next t) :
    t.inputs = s.inputs ∧ t.replies = s.replies ∧ t.delay = s.delay ∧ t.draws = s.draws := by
  cases i <;> simp only [exec] at h
  · cases execNop_cases h; exact ⟨rfl, rfl, rfl, rfl⟩
  · cases execCrcInit_cases h; exact ⟨rfl, rfl, rfl, rfl⟩
  · rcases execCrcUpdate_cases h with ⟨e, -, h⟩ | ⟨h, -⟩ | ⟨_, h⟩ <;> cases h <;> exact ⟨rfl, rfl, rfl, rfl⟩
  · rcases execCrcUpdateByte_cases h with ⟨_, h⟩; cases h; exact ⟨rfl, rfl, rfl, rfl⟩
  · rcases execCrcCompute_cases h with ⟨e, -, h⟩ | ⟨h, -⟩ | ⟨_, h⟩ <;> cases h <;> exact ⟨rfl, rfl, rfl, rfl⟩
  · rcases execTypeParse_cases h with ⟨e, -, h⟩ | ⟨-, h⟩ <;> cases h <;> exact ⟨rfl, rfl, rfl, rfl⟩
  · rcases execTypeParseText_cases h with ⟨e, -, h⟩ | ⟨h, -⟩ | ⟨_, -, h⟩ <;> cases h <;> exact ⟨rfl, rfl, rfl, rfl⟩
  · rcases execChunkParse_cases h with ⟨e, -, h⟩ | ⟨h, -⟩ | ⟨_, _, -, -, -, -, h⟩ <;> cases h <;>
      exact ⟨rfl, rfl, rfl, rfl⟩
  · rcases execChunkBuild_cases h with ⟨e, -, h⟩ | ⟨h, -⟩ | ⟨_, -, -, -, h⟩ <;> cases h <;> exact ⟨rfl, rfl, rfl, rfl⟩
  · rcases execContParse_cases h with ⟨e, -, h⟩ | ⟨h, -⟩ | ⟨_, -, -, -, -, -, h⟩ <;> cases h <;>
      exact ⟨rfl, rfl, rfl, rfl⟩
  · rcases execContSerialize_cases h with ⟨e, -, h⟩ | ⟨h, -⟩ | ⟨_, -, -, h⟩ <;> cases h <;> exact ⟨rfl, rfl, rfl, rfl⟩
  · rcases execContAppend_cases h with ⟨e, -, h⟩ | ⟨h, -⟩ | ⟨_, -, -, -, -, -, -, -, h⟩ <;> cases h <;>
      exact ⟨rfl, rfl, rfl, rfl⟩
  · rcases execContFind_cases h with ⟨e, -, h⟩ | ⟨-, h⟩ | ⟨_, _, -, -, h⟩ <;> cases h <;> exact ⟨rfl, rfl, rfl, rfl⟩
  · rcases execContRemove_cases h with ⟨e, -, h⟩ | ⟨_, _, _, -, -, h⟩ <;> cases h <;> exact ⟨rfl, rfl, rfl, rfl⟩
  · rcases execContEntry_cases h with ⟨e, -, h⟩ | ⟨_, -, -, h⟩ <;> cases h <;> exact ⟨rfl, rfl, rfl, rfl⟩

end Sys2Proof.Machine
end

