-- ==== Sys2Proof/Laws/Bus.lean ====
section
/-! SUPPORT. What the host's accesses and the resets can do: one lemma for each way an access can end. -/

namespace Sys2Proof.Machine

theorem registerAt_none {off : Nat} (h : 0x64 ≤ off) : registerAt off = none := by
  unfold registerAt
  repeat (rw [if_neg (by omega)])

theorem registerAccessWf_iff (width off : Nat) :
    registerAccessWf width off = true ↔ width = 32 ∧ off % 4 = 0 ∧ off < 0x100 := by
  simp [registerAccessWf, and_assoc]

/-- STATUS is at 0x08 only, CTRL at 0x04 only (R45). -/
theorem registerAt_busy_regs {off : Nat} {r : Reg} (h : registerAt off = some r) :
    (r = .status ↔ off = 0x08) ∧ (r = .ctrl ↔ off = 0x04) := by
  have small : ∀ off, off < 0x64 → ∀ r, registerAt off = some r → (r = .status ↔ off = 0x08) ∧ (r = .ctrl ↔ off = 0x04) := by
    decide +kernel
  by_cases ho : off < 0x64
  · exact small off ho r h
  · rw [registerAt_none (by omega)] at h; cases h

/-- A register read faults, or returns a word and changes nothing. -/
theorem hostRead_cases (s : State) (width off : Nat) :
    (registerAccessWf width off = false ∧ hostRead s width off = .fault .registerAccessMalformed) ∨
    (s.status.busy = true ∧ off ≠ 0x08 ∧ hostRead s width off = .fault .accessWhileBusy) ∨
    ∃ v, hostRead s width off = .next (s.reply (.word v)) := by
  rcases hw : registerAccessWf width off
  · exact .inl ⟨rfl, by simp [hostRead, hw]⟩
  rcases hb : s.status.busy
  · refine .inr (.inr ?_)
    rcases hr : registerAt off with _ | r
    · exact ⟨0, by simp [hostRead, hw, hr, hb]⟩
    · exact ⟨s.readReg r, by simp [hostRead, hw, hr, hb]⟩
  · by_cases ho : off = 0x08
    · subst ho
      exact .inr (.inr ⟨s.readReg .status, by simp [hostRead, hw, registerAt]⟩)
    · refine .inr (.inl ⟨rfl, ho, ?_⟩)
      rcases hr : registerAt off with _ | r
      · simp [hostRead, hw, hr, hb]
      · have hs : r ≠ .status := fun h => ho ((registerAt_busy_regs hr).1.mp h)
        simp [hostRead, hw, hr, hb, hs]

/-- A BufRead faults, or returns the byte and changes nothing. -/
theorem bufRead_cases (s : State) (a : Nat) :
    (∃ f, bufRead s a = .fault f) ∨ ∃ b, s.buf.read a = some b ∧ bufRead s a = .next (s.reply (.byte b)) := by
  unfold bufRead
  split_ifs
  · exact .inl ⟨_, rfl⟩
  · exact .inl ⟨_, rfl⟩
  · rcases h : s.buf.read a with _ | b
    · exact .inl ⟨_, rfl⟩
    · exact .inr ⟨b, rfl, rfl⟩

/-- A BufWrite faults, or stores the byte inside the buffer. -/
theorem bufWrite_cases (s : State) (a : Nat) (b : Byte) :
    (∃ f, bufWrite s a b = .fault f) ∨
    (s.status.busy = false ∧ a < s.params.bufBytes.toNat ∧ bufWrite s a b = .next (s.setBuf (s.buf.write a b))) := by
  unfold bufWrite
  split_ifs with h1 h2
  · exact .inl ⟨_, rfl⟩
  · exact .inl ⟨_, rfl⟩
  · exact .inr ⟨by simpa using h1, by omega, rfl⟩

/-- An abort keeps the canonical form of the buffer. -/
theorem State.abortedBuf_wf {s : State} (h : s.buf.wf) : s.abortedBuf.wf := by
  unfold State.abortedBuf
  split
  · split
    · exact h
    · split
      · exact h
      · exact Memory.wf_eraseRange h _ _
  · exact h

/-- An abort writes no byte. -/
theorem State.mem_abortedBuf {s : State} {c : Host.Cell} (h : c ∈ s.abortedBuf) : c ∈ s.buf := by
  unfold State.abortedBuf at h
  split at h
  · split at h
    · exact h
    · split at h
      · exact h
      · exact Memory.mem_eraseRange h
  · exact h

/-- The memory of the reset state is in canonical form. -/
theorem State.reset_buf_wf : State.reset.buf.wf := Memory.wf_nil

end Sys2Proof.Machine
end

