-- ==== Sys2Proof/Laws/Crc.lean ====
section
/-! SUPPORT. Small laws of the CRC function (40_crc.md R110, R113). -/

namespace Sys2Proof.Machine

@[simp] theorem crcFold_nil (c : Word) : crcFold c [] = c := rfl

@[simp] theorem crcFold_cons (c : Word) (b : Byte) (bs : List Byte) :
    crcFold c (b :: bs) = crcFold (crcStep c b) bs := rfl

/-- A shift is linear over GF(2) (R113(d)). -/
theorem crcShift_xor (c d : Word) : crcShift (c ^^^ d) = crcShift c ^^^ crcShift d := by
  unfold crcShift
  rw [BitVec.getLsbD_xor, BitVec.ushiftRight_xor_distrib]
  rcases c.getLsbD 0 <;> rcases d.getLsbD 0 <;> simp <;> ac_nf; simp

theorem crcShifts_xor (n : Nat) (c d : Word) : crcShifts n (c ^^^ d) = crcShifts n c ^^^ crcShifts n d := by
  induction n generalizing c d with
  | zero => rfl
  | succ n ih => rw [crcShifts, crcShift_xor, ih]; rfl

/-- The constant's top bit is 1 and a logical shift leaves 0 there, so bit 31 of the result tells which case a shift took. -/
theorem crcShift_eq_zero (c : Word) (h : crcShift c = 0) : c = 0 := by
  unfold crcShift at h
  split_ifs at h with hb
  · have h31 : ((c >>> 1) ^^^ (0xEDB88320 : Word)).getLsbD 31 = (0 : Word).getLsbD 31 := by rw [h]
    simp at h31
  · have hc : c.toNat / 2 = 0 := by
      have := congrArg BitVec.toNat h
      simpa [Nat.shiftRight_eq_div_pow] using this
    have h0 : c.toNat % 2 = 0 := by
      rcases Nat.mod_two_eq_zero_or_one c.toNat with h1 | h1
      · exact h1
      · exact absurd (by simpa [BitVec.getLsbD, Nat.testBit_zero] using h1) hb
    apply BitVec.eq_of_toNat_eq
    simp; omega

theorem crcShifts_eq_zero (n : Nat) (c : Word) (h : crcShifts n c = 0) : c = 0 := by
  induction n generalizing c with
  | zero => exact h
  | succ n ih => exact crcShift_eq_zero c (ih _ h)

theorem crcShifts_injective (n : Nat) {c d : Word} (h : crcShifts n c = crcShifts n d) : c = d := by
  have hx : crcShifts n (c ^^^ d) = 0 := by rw [crcShifts_xor, h]; simp
  simpa using crcShifts_eq_zero n _ hx

/-- Different states stay different under the same byte. -/
theorem crcStep_injective (b : Byte) {c d : Word} (h : crcStep c b = crcStep d b) : c = d := by
  simpa using crcShifts_injective 8 h

theorem crcFold_injective (bs : List Byte) {c d : Word} (h : crcFold c bs = crcFold d bs) : c = d := by
  induction bs generalizing c d with
  | nil => exact h
  | cons b bs ih => exact crcStep_injective b (ih h)

/-- Feeding a sequence in pieces gives the same state as feeding it whole (R113(a)). -/
theorem crcFold_append (c : Word) (x y : List Byte) : crcFold c (x ++ y) = crcFold (crcFold c x) y := by
  induction x generalizing c with
  | nil => rfl
  | cons b x ih => exact ih _

end Sys2Proof.Machine
end

