-- ==== Sys2Proof/Laws/PerInstr.lean ====
section
/-! SUPPORT. Families of lemmas with one lemma per command. -/

namespace Sys2Proof.Laws.Encoding

/-- The command is well formed and its word decodes to it (30_encoding.md R80 to R82). -/
def Statement (i : Instr) : Prop := i.wellFormed = true ∧ decode (encode i) = .ok i

theorem nop : Statement .nop := ⟨rfl, rfl⟩

theorem crcInit : Statement .crcInit := ⟨rfl, rfl⟩

theorem crcUpdate : Statement .crcUpdate := ⟨rfl, rfl⟩

theorem crcUpdateByte : Statement .crcUpdateByte := ⟨rfl, rfl⟩

theorem crcCompute : Statement .crcCompute := ⟨rfl, rfl⟩

theorem typeParse : Statement .typeParse := ⟨rfl, rfl⟩

theorem typeParseText : Statement .typeParseText := ⟨rfl, rfl⟩

theorem chunkParse : Statement .chunkParse := ⟨rfl, rfl⟩

theorem chunkBuild : Statement .chunkBuild := ⟨rfl, rfl⟩

theorem contParse : Statement .contParse := ⟨rfl, rfl⟩

theorem contSerialize : Statement .contSerialize := ⟨rfl, rfl⟩

theorem contAppend : Statement .contAppend := ⟨rfl, rfl⟩

theorem contFind : Statement .contFind := ⟨rfl, rfl⟩

theorem contRemove : Statement .contRemove := ⟨rfl, rfl⟩

theorem contEntry : Statement .contEntry := ⟨rfl, rfl⟩

end Sys2Proof.Laws.Encoding
end

