-- ==== Sys2Proof/Tests/Slice0.lean ====
section
/-! SUPPORT. The model's own tests: the checks of WellFormed, decoding by hand-written words, at most two results per command
(the expected values are those of spec/95_test_vectors.md), and a witness for the hypotheses of every obligation. -/

namespace Sys2Proof.Tests

open Sys2Proof Sys2Proof.Machine

set_option Elab.async false

/-! ## Helpers -/

/-- The outcome is a next state with property `p`. -/
def check (r : Result) (p : State → Bool) : Bool :=
  match r with
  | .next t => p t
  | .fault _ => false
  | .refused _ => false

/-- The outcome is the fault `f`. -/
def faults (r : Result) (f : Fault) : Bool :=
  match r with
  | .next _ => false
  | .fault g => g == f
  | .refused _ => false

theorem next_of_check {r : Result} {p : State → Bool} (h : check r p = true) : ∃ t, r = .next t ∧ p t = true := by
  rcases r with t | f | x
  · exact ⟨t, rfl, h⟩
  · simp [check] at h
  · simp [check] at h

theorem fault_of_faults {r : Result} {f : Fault} (h : faults r f = true) : r = .fault f := by
  rcases r with t | g | x
  · simp [faults] at h
  · simp only [faults, beq_iff_eq] at h; rw [h]
  · simp [faults] at h

/-- `s` with `bs` stored from buffer address `a`. -/
def put (s : State) (a : Nat) (bs : List Byte) : State := s.setBuf (s.buf.writeRange a bs)

/-- `s` with the operand registers written and command word `w` accepted, due in the next step. -/
def start (s : State) (w src len dst type opa : Word) : State :=
  ({ s with opnd := { srcAddr := src, srcLen := len, dstAddr := dst, type := type, opa := opa } } : State).commandStart w 0

/-- The error registers hold this record, STATUS.ERR is set and BUSY is clear. -/
def hasError (code : ErrCode) (field : ErrField) (offset index : Word) (t : State) : Bool :=
  t.err == { code := code, field := field, offset := offset, index := index } && t.status.err && !t.status.busy

/-- The state after reset: BUF_BYTES = 512, MAX_CHUNKS = 8. -/
def idle : State := State.reset

/-- "123456789". -/
def digits : List Byte := [0x31, 0x32, 0x33, 0x34, 0x35, 0x36, 0x37, 0x38, 0x39]

/-- "hello". -/
def hello : List Byte := [0x68, 0x65, 0x6C, 0x6C, 0x6F]

/-- F_teSt of 95_test_vectors.md. -/
def fTest : List Byte :=
  [0x00, 0x00, 0x00, 0x05, 0x74, 0x65, 0x53, 0x74, 0x68, 0x65, 0x6C, 0x6C, 0x6F, 0xA1, 0xF1, 0xC5, 0xCE]

/-- F_IHDR of 95_test_vectors.md. -/
def fIhdr : List Byte :=
  [0x00, 0x00, 0x00, 0x0D, 0x49, 0x48, 0x44, 0x52, 0x00, 0x00, 0x00, 0x01, 0x00, 0x00, 0x00, 0x01] ++
  [0x08, 0x00, 0x00, 0x00, 0x00, 0x3A, 0x7E, 0x9B, 0x55]

/-- F_IEND of 95_test_vectors.md. -/
def fIend : List Byte := [0x00, 0x00, 0x00, 0x00, 0x49, 0x45, 0x4E, 0x44, 0xAE, 0x42, 0x60, 0x82]

/-- SIG of R85. -/
def sig : List Byte := [0x89, 0x50, 0x4E, 0x47, 0x0D, 0x0A, 0x1A, 0x0A]

/-- IMG3 of 95_test_vectors.md. -/
def img3 : List Byte := sig ++ fIhdr ++ fTest ++ fIend

def eIhdr : Descriptor := { type := 0x49484452, len := 13, crc := 0x3A7E9B55, addr := 0x10 }
def eTest : Descriptor := { type := 0x74655374, len := 5, crc := 0xA1F1C5CE, addr := 0x29 }
def eIend : Descriptor := { type := 0x49454E44, len := 0, crc := 0xAE426082, addr := 0x3A }

def cIhdr : Chunk :=
  { type := 0x49484452, data := [0x00, 0x00, 0x00, 0x01, 0x00, 0x00, 0x00, 0x01, 0x08, 0x00, 0x00, 0x00, 0x00] }
def cTest : Chunk := { type := 0x74655374, data := hello }
def cIend : Chunk := { type := 0x49454E44, data := [] }

/-- "Full" of 95_test_vectors.md: IMG3 at 0, parsed. -/
def full : State := (put idle 0 img3).setTable true [eIhdr, eTest, eIend]

/-- The container of the signature alone. -/
def empty : State := (put idle 0 sig).setTable true []

/-! ## WellFormed refuses ill-formed terms -/

theorem test_params_buffer_too_small : Params.wf { bufBytes := 31, maxChunks := 8 } = false := by decide
theorem test_params_no_chunks : Params.wf { bufBytes := 512, maxChunks := 0 } = false := by decide
theorem test_params_smallest : Params.wf { bufBytes := 32, maxChunks := 1 } = true := by decide
theorem test_word_with_reserved_bits : commandWordWf 0x00000100 = false := by decide
theorem test_access_width : registerAccessWf 16 0x08 = false := by decide
theorem test_access_alignment : registerAccessWf 32 0x0A = false := by decide
theorem test_access_offset : registerAccessWf 32 0x100 = false := by decide
theorem test_access_last : registerAccessWf 32 0xFC = true := by decide

/-! ## Decoding: OPCODE in bits 7:0 and RSV = 0 in bits 31:8 (R80), the words written out from R81 -/

theorem test_decode_nop : decode 0b00000000000000000000000000000000 = .ok .nop := by decide
theorem test_decode_crcInit : decode 0b00000000000000000000000000000001 = .ok .crcInit := by decide
theorem test_decode_crcUpdate : decode 0b00000000000000000000000000000010 = .ok .crcUpdate := by decide
theorem test_decode_crcUpdateByte : decode 0b00000000000000000000000000000011 = .ok .crcUpdateByte := by decide
theorem test_decode_crcCompute : decode 0b00000000000000000000000000000100 = .ok .crcCompute := by decide
theorem test_decode_typeParse : decode 0b00000000000000000000000000010000 = .ok .typeParse := by decide
theorem test_decode_typeParseText : decode 0b00000000000000000000000000010001 = .ok .typeParseText := by decide
theorem test_decode_chunkParse : decode 0b00000000000000000000000000100000 = .ok .chunkParse := by decide
theorem test_decode_chunkBuild : decode 0b00000000000000000000000000100001 = .ok .chunkBuild := by decide
theorem test_decode_contParse : decode 0b00000000000000000000000000110000 = .ok .contParse := by decide
theorem test_decode_contSerialize : decode 0b00000000000000000000000000110001 = .ok .contSerialize := by decide
theorem test_decode_contAppend : decode 0b00000000000000000000000000110010 = .ok .contAppend := by decide
theorem test_decode_contFind : decode 0b00000000000000000000000000110011 = .ok .contFind := by decide
theorem test_decode_contRemove : decode 0b00000000000000000000000000110100 = .ok .contRemove := by decide
theorem test_decode_contEntry : decode 0b00000000000000000000000000110101 = .ok .contEntry := by decide

/-- The illegal words of vectors T2 to T7. -/
theorem test_decode_illegal :
    decode 0x00000005 = .error .reservedOpcode ∧ decode 0x00000100 = .error .reservedBits ∧
    decode 0x00000136 = .error .reservedBits ∧ decode 0xFFFFFFFF = .error .reservedBits ∧
    decode 0x80000004 = .error .reservedBits ∧ decode 0x00000012 = .error .reservedOpcode := by decide

theorem test_decodeTableWord :
    decodeTableWord 32 0x21 = some .chunkBuild ∧ decodeTableWord 32 0x06 = none := by decide

/-! ## Reset and the interface (vectors T9 to T15) -/

theorem test_reset_reads : idle.readReg .status = 0 ∧ idle.readReg .id = 0x504E4743 ∧
    idle.readReg .crcState = 0xFFFFFFFF ∧ idle.readReg .crcValue = 0 ∧ idle.readReg .bufSize = 512 ∧
    idle.readReg .ctCap = 8 := by decide

theorem test_first_step_runs_word : check (step (State.reset.withFetchWord 32 0x03)) (fun t =>
    t.crcState == crcStep 0xFFFFFFFF 0x00 && !t.status.busy) = true := by decide +kernel

theorem test_reserved_offset : check (hostRead idle 32 0x64) (fun t => t.replies == [.word 0]) = true := by decide
theorem test_narrow_read : faults (hostRead idle 16 0x08) .registerAccessMalformed = true := by decide
theorem test_busy_read : faults (hostRead (start idle 0 0 0 0 0 0) 32 0x20) .accessWhileBusy = true := by decide
theorem test_busy_write_cmd : faults (hostWrite (start idle 0 0 0 0 0 0) 32 0x0C 1) .accessWhileBusy = true := by decide
theorem test_illegal_word : check (step (start idle 0x00000100 0 0 0 0 0))
    (hasError .illegalCommand .none 0x0C 0) = true := by decide
theorem test_soft_reset_keeps_buffer : check (hostWrite (put full 0x100 hello) 32 0x04 1)
    (fun t => t.buf == (put full 0x100 hello).buf && t.ct == [] && t.readReg .status == 0) = true := by decide +kernel
theorem test_abort_of_build : (start (put idle 0x40 hello) 0x21 0x40 5 0x42 0x74655374 0).abortedBuf.read 0x42 = some 0x6C ∧
    (start (put idle 0x40 hello) 0x21 0x40 5 0x45 0x74655374 0).abortedBuf.read 0x44 = some 0x6F ∧
    (start (put (put idle 0x40 hello) 0x50 hello) 0x21 0x40 5 0x45 0x74655374 0).abortedBuf.read 0x50 = none := by
  decide +kernel

/-! ## Commands -/

theorem test_crcTable_ends : crcTable.length = 256 ∧ crcTable[255]? = some 0x2D02EF8D ∧
    crcStepByTable 0xFFFFFFFF 0x52 = 0xA89820AA := by decide +kernel

/-- T1. -/
theorem test_nop_clears_error : check (step ((idle.raise (errorAt .chunkNotFound .operand 0x2C 0)).commandStart 0 0))
    (fun t => t.err == ErrorRecord.clear && t.status == idle.status) = true := by decide

/-- The example of R112. -/
theorem test_crcInit : check (exec .crcInit ({ idle with crcState := 0x2B7BF6C3 } : State))
    (fun t => t.crcState == 0xFFFFFFFF && t.readReg .crcValue == 0) = true := by decide

/-- CR7 and CR8. -/
theorem test_crcUpdate_first : check (exec .crcUpdate (start (put idle 0 digits) 2 0 4 0 0 0))
    (fun t => t.crcState == 0x641C1F5C) = true := by decide +kernel
theorem test_crcUpdate_second : check (exec .crcUpdate ({ start (put idle 0 digits) 2 4 5 0 0 0 with crcState := 0x641C1F5C }))
    (fun t => t.readReg .crcValue == 0xCBF43926) = true := by decide +kernel

/-- CR6 and CR5. -/
theorem test_crcUpdateByte_high_bits : check (exec .crcUpdateByte (start idle 3 0 0 0 0 0xFFFFFF52))
    (fun t => t.crcState == 0xA89820AA) = true := by decide +kernel
theorem test_crcUpdateByte_last : check (exec .crcUpdateByte ({ start idle 3 0 0 0 0 0x74 with crcState := 0xCFAC51CE }))
    (fun t => t.crcState == 0x2B7BF6C3) = true := by decide +kernel

/-- The example of R118, and CR12. -/
theorem test_crcCompute : check (exec .crcCompute (start (put idle 0 digits) 4 0 9 0 0 0))
    (fun t => t.readReg .crcValue == 0xCBF43926) = true := by decide +kernel
theorem test_crcCompute_range : check (exec .crcCompute (start idle 4 0xFFFFFFFF 1 0 0 0))
    (fun t => hasError .rangeError .operand 0x20 0 t && t.crcState == 0xFFFFFFFF) = true := by decide

/-- The examples of R135. -/
theorem test_typeParse : check (exec .typeParse (start idle 0x10 0 0 0 0x52755374 0))
    (fun t => t.typeFlags == 0x1D) = true := by decide
theorem test_typeParse_bad : check (exec .typeParse (start idle 0x10 0 0 0 0x52753174 0))
    (hasError .invalidTypeBytes .type 2 0) = true := by decide

/-- V-S4, "Rust" and "Ru1t". -/
theorem test_typeParseText : check (exec .typeParseText (start (put idle 0x10 [0x52, 0x75, 0x73, 0x74]) 0x11 0x10 4 0 0 0))
    (fun t => t.opnd.type == 0x52757374 && t.typeFlags == 0x09) = true := by decide
theorem test_typeParseText_bad : check (exec .typeParseText (start (put idle 0x10 [0x52, 0x75, 0x31, 0x74]) 0x11 0x10 4 0 7 0))
    (fun t => hasError .invalidTypeBytes .type 0x12 0 t && t.opnd.type == 7) = true := by decide

/-- F_teSt at 0x100, and the same with its last byte changed (section 2.3 of 95_test_vectors.md). -/
theorem test_chunkParse : check (exec .chunkParse (start (put idle 0x100 fTest) 0x20 0x100 17 0 0 0))
    (fun t => t.res == { len := 5, type := 0x74655374, crc := 0xA1F1C5CE, dataAddr := 0x108, index := 0, outLen := 17 } &&
      t.typeFlags == 0x1C) = true := by decide +kernel
theorem test_chunkParse_mismatch : check (exec .chunkParse (start (put (put idle 0x100 fTest) 0x110 [0xCF]) 0x20 0x100 17 0 0 0))
    (hasError .checksumMismatch .crc 0x10D 0) = true := by decide +kernel

/-- V-S1, and step 8 of P6. -/
theorem test_chunkBuild : check (exec .chunkBuild (start (put idle 0x40 hello) 0x21 0x40 5 0x100 0x74655374 0))
    (fun t => t.buf.readRange 0x100 17 == some fTest && t.res.outLen == 0x11 && t.res.dataAddr == 0x108) = true := by
  decide +kernel
theorem test_chunkBuild_overlap : check (exec .chunkBuild (start (put idle 0x40 hello) 0x21 0x40 5 0x3C 0x74655374 0))
    (fun t => hasError .overlapError .operand 0x28 0 t && t.buf == (put idle 0x40 hello).buf) = true := by decide +kernel

/-- V-S2, and the reparse of K27 with the image left at 0. -/
theorem test_contParse : check (exec .contParse (start (put idle 0 img3) 0x30 0 62 0 0 0))
    (fun t => t.ct == [eIhdr, eTest, eIend] && t.status.cvalid && t.res.outLen == 62) = true := by decide +kernel
theorem test_contParse_broken : check (exec .contParse (start (put full 41 [0x48]) 0x30 0 62 0 0 0))
    (fun t => hasError .checksumMismatch .crc 46 1 t && t.ct == [] && !t.status.cvalid) = true := by decide +kernel

/-- V-S2, and an image over a referenced region. -/
theorem test_contSerialize : check (exec .contSerialize (start full 0x31 0 0 0x100 0 0))
    (fun t => t.buf.readRange 0x100 62 == some img3 && t.res.outLen == 62) = true := by decide +kernel
theorem test_contSerialize_overlap : check (exec .contSerialize (start full 0x31 0 0 0x20 0 0))
    (fun t => hasError .overlapError .operand 0x28 0 t && t.buf == full.buf) = true := by decide +kernel

/-- The example of R176. -/
theorem test_contAppend : check (exec .contAppend (start (put empty 0x40 hello) 0x32 0x40 5 0 0x74655374 0))
    (fun t => t.ct == [{ eTest with addr := 0x40 }] && t.res.index == 0 && t.typeFlags == 0x1C) = true := by decide +kernel
theorem test_contAppend_full : check (exec .contAppend (start ((put empty 0x40 hello).setTable true (List.replicate 8 eTest))
      0x32 0x40 5 0 0x74655374 0)) (hasError .capacityExceeded .operand 0 0) = true := by decide +kernel

/-- The examples of R178. -/
theorem test_contFind : check (exec .contFind (start full 0x33 0 0 0 0x74655374 0))
    (fun t => t.status.found && t.res.index == 1 && t.res.dataAddr == 0x29) = true := by decide
theorem test_contFind_none : check (exec .contFind (start full 0x33 0 0 0 0x54455354 0))
    (fun t => !t.status.found && !t.status.err && t.res == full.res) = true := by decide

/-- V-S6. -/
theorem test_contRemove : check (exec .contRemove (start full 0x34 0 0 0 0x74655374 0))
    (fun t => t.ct == [eIhdr, eIend] && t.res.index == 1 && t.res.len == 5) = true := by decide
theorem test_contRemove_again : check (exec .contRemove (start (full.setTable true [eIhdr, eIend]) 0x34 0 0 0 0x74655374 0))
    (fun t => hasError .chunkNotFound .operand 0x2C 0 t && t.ct == [eIhdr, eIend]) = true := by decide

/-- The example of R182, and K25. -/
theorem test_contEntry : check (exec .contEntry (start full 0x35 0 0 0 0 2))
    (fun t => t.res.type == 0x49454E44 && t.res.len == 0 && t.res.crc == 0xAE426082 && t.res.index == 2) = true := by decide
theorem test_contEntry_bad : check (exec .contEntry (start full 0x35 0 0 0 0 0xFFFFFFFF))
    (hasError .badIndex .operand 0x30 0) = true := by decide

/-! ## Witnesses: a concrete state and operands that meet the hypotheses of each obligation, clause by clause -/

/-- A range that reads as `bs` holds `bs`. -/
theorem holds_of {s : State} {a : Nat} {bs : List Byte} (h : s.buf.readRange a bs.length = some bs) : s.Holds a bs :=
  (State.holds_iff s a bs).mpr h

/-- A busy block with two further steps of delay. -/
def waiting (w : Word) : State := full.commandStart w 2

/-- A number as a command word. -/
def reservedWord (n : Nat) : Word := BitVec.ofNat 32 n

/-- Every boundary of the reserved encodings of R83 is a case of `ReservedWordsAreIllegal`. -/
theorem witness_ReservedWordsAreIllegal : ∀ n ∈ [0x100, 0x80000000, 0x05, 0x0F, 0x12, 0x1F, 0x22, 0x2F, 0x36, 0xFF],
    (idle.commandStart (reservedWord n) 0).status.busy = true ∧ (idle.commandStart (reservedWord n) 0).delay = 0 ∧
    ((reservedWord n).extractLsb' 8 24 ≠ 0 ∨
      (0x05 ≤ ((reservedWord n).extractLsb' 0 8).toNat ∧ ((reservedWord n).extractLsb' 0 8).toNat ≤ 0x0F) ∨
      (0x12 ≤ ((reservedWord n).extractLsb' 0 8).toNat ∧ ((reservedWord n).extractLsb' 0 8).toNat ≤ 0x1F) ∨
      (0x22 ≤ ((reservedWord n).extractLsb' 0 8).toNat ∧ ((reservedWord n).extractLsb' 0 8).toNat ≤ 0x2F) ∨
      0x36 ≤ ((reservedWord n).extractLsb' 0 8).toNat) := by
  decide +kernel

theorem witness_CommandStartClearsAndLatches :
    (full.status.busy = false ∧ ({ full with inputs := [.wr 32 0x0C 4] } : State).inputs = .wr 32 0x0C 4 :: []) ∧
    ((full.commandStart 4 0).status.busy = true ∧ (full.commandStart 4 0).delay = 0 ∧
      decode (full.commandStart 4 0).cmdWord = .ok .crcCompute) ∧
    decode (full.commandStart 5 0).cmdWord = .error .reservedOpcode := by decide

theorem witness_StepRunsTheDecodedCommand :
    ((full.commandStart 1 0).status.busy = true ∧ (full.commandStart 1 0).delay = 0 ∧
      decode (full.commandStart 1 0).cmdWord = .ok .crcInit ∧ check (exec .crcInit (full.commandStart 1 0)) (fun _ => true) = true) ∧
    (decode (start idle 2 0x20 1 0 0 0).cmdWord = .ok .crcUpdate ∧
      faults (exec .crcUpdate (start idle 2 0x20 1 0 0 0)) .commandReadUnwritten = true) ∧
    decode 0x30 = .ok .contParse := by decide

theorem witness_CommandCompletesAfterItsDelay :
    ((waiting 1).status.busy = true ∧ (waiting 1).inputs = [] ∧ decode (waiting 1).cmdWord = .ok .crcInit) ∧
    ((waiting 5).status.busy = true ∧ (waiting 5).inputs = [] ∧ decode (waiting 5).cmdWord = .error .reservedOpcode) := by
  decide

/-- `waiting` with the host in WAIT. -/
def polling : State := { waiting 1 with inputs := [.wait, .rd 32 0x08] }

/-- `polling` when the delay is used up and every turn of WAIT has read STATUS. -/
def polled : State :=
  { polling with delay := 0, replies := List.replicate polling.delay (.word polling.status.word) ++ polling.replies }

theorem witness_WaitLoopEnds : ∃ t, polling.status.busy = true ∧ polling.inputs = .wait :: [.rd 32 0x08] ∧
    decode polling.cmdWord = .ok .crcInit ∧ exec .crcInit polled = .next t :=
  ⟨_, rfl, rfl, by decide, rfl⟩

theorem witness_WaitLoopEnds_illegal :
    ({ polling with cmdWord := 0x100 } : State).status.busy = true ∧
    ({ polling with cmdWord := 0x100 } : State).inputs = .wait :: [.rd 32 0x08] ∧
    decode ({ polling with cmdWord := 0x100 } : State).cmdWord = .error .reservedBits := by decide

theorem witness_NopOnlyStartsAndFinishes : full.status.busy = false ∧
    ({ full with inputs := [.wr 32 0x0C 0] } : State).inputs = [.wr 32 0x0C 0] := by decide

/-- CONT_SERIALIZE of `full` to 0x100, about to run. -/
def serializing : State := start full 0x31 0 0 0x100 0 0

/-- A state with a container and a running command has the invariant. -/
theorem serializing_inv : serializing.Inv where
  params := by decide
  bufCanonical := by decide +kernel
  bufInside := by decide +kernel
  tableFits := by decide
  noContainer := by decide
  typesAreLetters := by decide
  regionsInRange := by decide
  errFlag := by decide
  errClear := by decide
  neverNotUtf8 := by decide
  flagsReserved := fun k _ => by show (0#32).getLsbD k = false; simp
  flagsValid := by decide
  foundNoErr := by decide
  busyStarted := by decide

theorem witness_EveryCommandCompletesOrReadsUnwritten : serializing.Inv := serializing_inv

theorem witness_FailedCommandChangesOnlyErrorState :
    (start idle 0x33 0 0 0 0 0).err.code = .none ∧ ∃ t, exec .contFind (start idle 0x33 0 0 0 0 0) = .next t ∧
      t.err.code ≠ .none :=
  ⟨rfl, _, rfl, by decide⟩

theorem witness_CommandsWriteOnlyTheirRegisters : ∃ t, exec .contEntry (start full 0x35 0 0 0 0 2) = .next t := ⟨_, rfl⟩

theorem witness_RegisterSpaceReadsAndWrites : full.status.busy = false ∧ 0x64 ≤ 0x64 ∧ 0x64 ≤ 0xFC ∧ 0x64 % 4 = 0 ∧
    0x64 ≤ 0xFC ∧ 0xFC ≤ 0xFC ∧ 0xFC % 4 = 0 ∧
    (∀ off ∈ [0x00, 0x08, 0x10, 0x1C, 0x34, 0x60, 0x64, 0xFC], off < 0x100 ∧ off % 4 = 0 ∧
      off ∉ [0x04, 0x0C, 0x20, 0x24, 0x28, 0x2C, 0x30]) ∧
    (0xFFFFFFFE : Word).getLsbD 0 = false ∧ 0x02 % 4 ≠ 0 ∧ 0x100 ≤ 0x100 := by decide

theorem witness_MalformedRegisterAccessFaults : 16 ≠ 32 ∧ 0x0A % 4 ≠ 0 ∧ 0x100 ≤ 0x100 ∧ full.status.busy = false ∧
    (waiting 1).status.busy = true ∧ 0 < (waiting 1).delay := by decide

theorem witness_BusyBlockAllowsOnlyStatusAndCtrl : (waiting 1).status.busy = true ∧ (waiting 1).delay = 1 + 1 ∧
    (0xFFFFFFFE : Word).getLsbD 0 = false ∧ (1 : Word).getLsbD 0 = true ∧
    (∀ off ∈ [0x00, 0x04, 0x0C, 0xFC], off < 0x100 ∧ off % 4 = 0 ∧ off ≠ 0x08) ∧
    (∀ off ∈ [0x00, 0x08, 0x0C, 0xFC], off < 0x100 ∧ off % 4 = 0 ∧ off ≠ 0x04) ∧
    (31 ≠ 32 ∧ 0x06 % 4 ≠ 0 ∧ 0x100 ≤ 0x100) := by decide

theorem witness_BufferPortStoresAndReturnsBytes : full.status.busy = false ∧
    (0 < full.params.bufBytes.toNat ∧ 511 < full.params.bufBytes.toNat) ∧
    full.buf.read 0 = some 0x89 ∧ full.buf.read 511 = none ∧ full.params.bufBytes.toNat ≤ 512 := by decide

theorem witness_HostReadsHaveNoSideEffect : full.status.busy = false ∧
    (∃ t, step { full with inputs := .rd 32 0x58 :: [] } = .next t) ∧
    ∃ t, step { full with inputs := .rb 61 :: [] } = .next t :=
  ⟨rfl, (next_of_check (p := fun _ => true) (by decide)).imp fun _ h => h.1,
    (next_of_check (p := fun _ => true) (by decide +kernel)).imp fun _ h => h.1⟩

theorem witness_HardwareResetClearsTheBlock : full.status.busy = false ∧ 0 < (waiting 1).delay ∧
    (full.commandStart 1 0).status.busy = true ∧ (full.commandStart 1 0).delay = 0 ∧
    ∃ u, step { full.commandStart 1 0 with inputs := [.hardReset] } = .next u :=
  ⟨rfl, by decide, rfl, rfl, (next_of_check (p := fun _ => true) (by decide)).imp fun _ h => h.1⟩

theorem witness_SoftResetKeepsTheBuffer : full.status.busy = false ∧ 0 < (waiting 1).delay ∧ (1 : Word).getLsbD 0 = true ∧
    (waiting 1).cmdWord ≠ 0x21 ∧ (waiting 1).cmdWord ≠ 0x31 := by decide

/-- CHUNK_BUILD, CONT_SERIALIZE and a command that writes no byte, each running on with its checks passed. -/
theorem witness_SoftResetAbortsTheRunningCommand :
    (∀ s ∈ [({ start (put idle 0x40 hello) 0x21 0x40 5 0x45 0x74655374 0 with delay := 1 } : State)],
      s.status.busy = true ∧ 0 < s.delay ∧ s.cmdWord = 0x21 ∧ typeOk s.ty = true ∧ s.InRange s.src s.len ∧
      s.InRange s.dst (12 + s.len) ∧ ¬ Overlaps s.src s.len s.dst (12 + s.len)) ∧
    (∀ s ∈ [({ serializing with delay := 1 } : State)], s.status.busy = true ∧ 0 < s.delay ∧ s.cmdWord = 0x31 ∧
      s.status.cvalid = true ∧ s.InRange s.dst (imageLen s.ct) ∧
      ∀ e ∈ s.ct, ¬ Overlaps s.dst (imageLen s.ct) e.addr.toNat e.len.toNat) ∧
    ((waiting 1).cmdWord ≠ 0x21 ∧ (waiting 1).cmdWord ≠ 0x31) ∧ (3 : Word).getLsbD 0 = true := by decide +kernel

theorem witness_FirstStatusReadAfterResetIsZero : full.status.busy = false ∧ 0 < (waiting 1).delay := by decide

/-- The range of a CRC command: read in full, past the buffer, and with an unwritten byte. -/
theorem witness_CrcUpdateFoldsTheRange :
    (∀ s ∈ [start (put idle 503 digits) 2 503 9 0 0 0], s.InRange s.src s.len ∧ digits.length = s.len ∧
      s.buf.readRange s.src digits.length = some digits) ∧
    (∀ s ∈ [start idle 2 511 2 0 0 0, start idle 2 0xFFFFFFFF 1 0 0 0], ¬ s.InRange s.src s.len) ∧
    (∀ s ∈ [start (put idle 0 digits) 2 0 10 0 0 0], s.InRange s.src s.len ∧ 9 < s.len ∧ s.buf.read (s.src + 9) = none) := by
  decide +kernel

theorem witness_CrcComputeGivesTheCrcOfTheRange :
    (∀ s ∈ [start idle 4 512 0 0 0 0], s.InRange s.src s.len ∧ ([] : List Byte).length = s.len ∧ s.buf.readRange s.src 0 = some []) ∧
    (∀ s ∈ [start idle 4 513 0 0 0 0], ¬ s.InRange s.src s.len) ∧
    (∀ s ∈ [start idle 4 511 1 0 0 0], s.InRange s.src s.len ∧ 0 < s.len ∧ s.buf.read (s.src + 0) = none) := by
  decide +kernel

theorem witness_CrcUpdatesSplit : ∃ t u, (start (put idle 0 digits) 2 0 9 0 0 0).len = 4 + 5 ∧
    (start (put idle 0 digits) 2 0 9 0 0 0).InRange (start (put idle 0 digits) 2 0 9 0 0 0).src 9 ∧
    (start (put idle 0 digits) 2 0 9 0 0 0).buf.readRange 0 9 = some digits ∧
    exec .crcUpdate (start (put idle 0 digits) 2 0 4 0 0 0) = .next t ∧
    exec .crcUpdate { t with latch := { srcAddr := 4, srcLen := 5, dstAddr := 0, type := 0, opa := 0 } } = .next u :=
  ⟨_, _, by decide, by decide, by decide +kernel, rfl, rfl⟩

theorem witness_SingleBitFlipChangesTheCrc : 0 < hello.length ∧ 4 < hello.length ∧ 0 < 8 ∧ 7 < 8 := by decide

theorem witness_CrcTableFormAgrees : 0 < 256 ∧ 255 < 256 := by decide

theorem witness_ResetStateHasResetValues : full.status.busy = false := by decide

theorem witness_TypeFlagsBits : 5 ≤ 5 ∧ 5 ≤ 31 := by decide

theorem witness_TypeParseReportsFlagsOrFirstBadByte :
    (∀ k, k < 4 → isAlpha (typeByte 0x5A7A415A k) = true) ∧
    (isAlpha (typeByte 0x40414141 0) = false ∧ isAlpha (typeByte 0x4141415B 3) = false ∧
      ∀ j, j < 3 → isAlpha (typeByte 0x4141415B j) = true) := by decide

theorem witness_TypeParseTextLoadsTypeOrFails :
    (∀ s ∈ [start idle 0x11 509 4 0 0 0], ¬ s.InRange s.src s.len) ∧
    (∀ s ∈ [start idle 0x11 0x10 3 0 0 0, start idle 0x11 0x10 5 0 0 0], s.InRange s.src s.len ∧ s.len ≠ 4) ∧
    (∀ s ∈ [start (put idle 508 [1, 2, 3]) 0x11 508 4 0 0 0], s.InRange s.src s.len ∧ s.len = 4 ∧ s.buf.read (s.src + 3) = none) ∧
    (∀ s ∈ [start (put idle 508 (be32Bytes 0x52755374)) 0x11 508 4 0 0 0], s.InRange s.src s.len ∧ s.len = 4 ∧
      s.buf.readRange s.src 4 = some (be32Bytes 0x52755374)) ∧
    (∀ k, k < 4 → isAlpha (typeByte 0x52755374 k) = true) ∧
    (isAlpha (typeByte 0x52753174 2) = false ∧ ∀ j, j < 2 → isAlpha (typeByte 0x52753174 j) = true) := by decide +kernel

theorem cTest_ok : cTest.ok := ⟨by decide, by decide⟩

theorem cTest_frame : cTest.frame = fTest := by decide +kernel

theorem witness_ChunkParseAcceptsAWellFormedFrame : cTest.ok ∧
    ∀ s ∈ [start (put idle 495 fTest) 0x20 495 17 0 0 0], s.InRange s.src s.len ∧ s.len = 12 + cTest.data.length ∧
      s.buf.readRange s.src cTest.frame.length = some cTest.frame :=
  ⟨cTest_ok, by rw [cTest_frame]; decide +kernel⟩

/-- The rejected ranges of section 2.3 of 95_test_vectors.md, one for each clause. -/
theorem witness_ChunkParseRejectsInReadOrder :
    (∀ s ∈ [start idle 0x20 502 17 0 0 0], ¬ s.InRange s.src s.len) ∧
    (∀ s ∈ [start (put idle 0x100 fTest) 0x20 0x100 18 0 0 0], s.InRange s.src s.len ∧ 17 < s.len ∧
      s.buf.read (s.src + 17) = none) ∧
    (∀ b ∈ [[], fTest.take 3, fTest.take 4, fTest.take 7, be32Bytes 5 ++ be32Bytes 0x74653174, fTest.take 8, fTest.take 12,
        fTest.take 13, fTest.take 16, fTest ++ [0x00], fTest.take 16 ++ [0xCF]],
      (start (put idle 0x100 b) 0x20 0x100 (BitVec.ofNat 32 b.length) 0 0 0).InRange 0x100 b.length ∧
      (put idle 0x100 b).buf.readRange 0x100 b.length = some b) ∧
    (([] : List Byte).length < 4 ∧ (fTest.take 3).length < 4) ∧ (4 ≤ (fTest.take 4).length ∧ (fTest.take 7).length < 8) ∧
    (isAlpha (typeByte 0x74653174 2) = false ∧ ∀ j, j < 2 → isAlpha (typeByte 0x74653174 j) = true) ∧
    (typeOk 0x74655374 = true ∧ fTest.take 8 = be32Bytes 5 ++ be32Bytes 0x74655374 ++ [] ∧
      fTest.take 12 = be32Bytes 5 ++ be32Bytes 0x74655374 ++ hello.take 4 ∧ (hello.take 4).length < (5 : Word).toNat) ∧
    (fTest.take 13 = be32Bytes 5 ++ be32Bytes 0x74655374 ++ hello ∧ (5 : Word).toNat ≤ hello.length ∧
      (hello ++ [0xA1, 0xF1, 0xC5]).length < (5 : Word).toNat + 4) ∧
    (5 : Word).toNat + 4 < (hello ++ be32Bytes 0xA1F1C5CE ++ [0x00]).length ∧
    (hello.length = (5 : Word).toNat ∧ (0xA1F1C5CF : Word) ≠ crc32 (be32Bytes 0x74655374 ++ hello)) := by decide +kernel

theorem witness_ChunkBuildWritesTheFrame : ∀ s ∈ [start (put idle 0x40 hello) 0x21 0x40 5 0x45 0x74655374 0],
    typeOk s.ty = true ∧ s.InRange s.src s.len ∧ s.InRange s.dst (12 + s.len) ∧
    ¬ Overlaps s.src s.len s.dst (12 + s.len) ∧ hello.length = s.len ∧ s.buf.readRange s.src 5 = some hello := by
  decide +kernel

theorem witness_ChunkBuildRejectsInOrder :
    (isAlpha (typeByte 0 0) = false ∧ isAlpha (typeByte 0x6161617B 3) = false ∧
      ∀ j, j < 3 → isAlpha (typeByte 0x6161617B j) = true) ∧
    (∀ s ∈ [start idle 0x21 512 1 0 0x74655374 0], typeOk s.ty = true ∧ ¬ s.InRange s.src s.len) ∧
    (∀ s ∈ [start idle 0x21 0 5 496 0x74655374 0], s.InRange s.src s.len ∧ ¬ s.InRange s.dst (12 + s.len)) ∧
    (∀ s ∈ [start idle 0x21 0x40 5 0x44 0x74655374 0], s.InRange s.src s.len ∧ s.InRange s.dst (12 + s.len) ∧
      0 < s.len ∧ s.src < s.dst + (12 + s.len) ∧ s.dst < s.src + s.len) ∧
    (∀ s ∈ [start idle 0x21 0x40 5 0x45 0x74655374 0], s.InRange s.src s.len ∧ s.InRange s.dst (12 + s.len) ∧
      ¬ Overlaps s.src s.len s.dst (12 + s.len) ∧ 4 < s.len ∧ s.buf.read (s.src + 4) = none) := by decide +kernel

theorem witness_ChunkRoundTrip : ∃ t, exec .chunkBuild (start (put idle 0x40 hello) 0x21 0x40 5 0x100 0x74655374 0) = .next t ∧
    t.err.code = .none ∧ hello.length = (start (put idle 0x40 hello) 0x21 0x40 5 0x100 0x74655374 0).len ∧
    (put idle 0x40 hello).Holds 0x40 hello ∧
    ∃ u : State, u.params = idle.params ∧ u.latch.srcAddr = 0x100 ∧ u.len = 12 + 5 ∧ u.buf = t.buf ∧
      ∃ v, exec .chunkParse u = .next v ∧ v.err.code = .none := by
  obtain ⟨t, ht, hp⟩ := next_of_check (r := exec .chunkBuild (start (put idle 0x40 hello) 0x21 0x40 5 0x100 0x74655374 0))
    (p := fun t => t.err.code == .none && check (exec .chunkParse { start idle 0x20 0x100 17 0 0 0 with buf := t.buf })
      (fun v => v.err.code == .none)) (by decide +kernel)
  rw [Bool.and_eq_true] at hp
  obtain ⟨v, hv, hv'⟩ := next_of_check hp.2
  exact ⟨t, ht, by simpa using hp.1, rfl, holds_of (by decide +kernel),
    { start idle 0x20 0x100 17 0 0 0 with buf := t.buf }, rfl, rfl, rfl, rfl, v, hv, by simpa using hv'⟩

/-- Every single-bit flip of F_teSt is a case; the length bits 1 and 3 are 0 and its bits 0 and 2 are 1; of a type byte, bit 5
leaves a letter and bit 7 does not. -/
theorem witness_SingleBitCorruptionIsRejected : cTest.ok ∧
    (∀ p, p < 12 + cTest.data.length → ∀ j, j < 8 → ∀ s ∈ [start (put idle 0x100 (flipBit fTest p j)) 0x20 0x100 17 0 0 0],
      s.InRange s.src s.len ∧ s.len = 12 + cTest.data.length ∧ s.buf.readRange s.src 17 = some (flipBit cTest.frame p j)) ∧
    (cTest.data.length.testBit 1 = false ∧ cTest.data.length.testBit 3 = false ∧ cTest.data.length.testBit 31 = false ∧
      cTest.data.length.testBit 0 = true ∧ cTest.data.length.testBit 2 = true) ∧
    (isAlpha (typeByte cTest.type 0 ^^^ ((1 : Byte) <<< 5)) = true ∧
      isAlpha (typeByte cTest.type 3 ^^^ ((1 : Byte) <<< 7)) = false) :=
  ⟨cTest_ok, by rw [cTest_frame]; decide +kernel, by decide, by decide⟩

theorem chunks_ok : ∀ c ∈ [cIhdr, cTest, cIend], c.ok := by
  intro c hc
  simp only [List.mem_cons, List.not_mem_nil, or_false] at hc
  rcases hc with rfl | rfl | rfl <;> exact ⟨by decide, by decide⟩

theorem chunks_frames : framesOf [cIhdr, cTest, cIend] = fIhdr ++ (fTest ++ (fIend ++ [])) := by decide +kernel

theorem witness_ContParseLoadsTheTable : (∀ c ∈ [cIhdr, cTest, cIend], c.ok) ∧
    ∀ s ∈ [start (put idle 450 img3) 0x30 450 62 0 0 0], [cIhdr, cTest, cIend].length ≤ s.params.maxChunks.toNat ∧
      s.InRange s.src s.len ∧ s.len = 8 + (framesOf [cIhdr, cTest, cIend]).length ∧
      s.buf.readRange s.src 62 = some (sig ++ framesOf [cIhdr, cTest, cIend]) :=
  ⟨chunks_ok, by rw [chunks_frames]; decide +kernel⟩

theorem witness_ContParseAcceptsOnlyContainers : ∃ t, exec .contParse (start full 0x30 0 62 0 0 0) = .next t ∧
    t.err.code = .none :=
  (next_of_check (p := fun t => t.err.code == .none) (by decide +kernel)).imp fun _ h => ⟨h.1, by simpa using h.2⟩

/-- One byte sequence for each rejection, after the frame of one chunk; with MAX_CHUNKS = 1 a second frame is one too many. -/
theorem witness_ContParseRejectsInWireOrder :
    (∀ s ∈ [start idle 0x30 0 513 0 0 0], ¬ s.InRange s.src s.len) ∧
    (∀ s ∈ [start (put idle 0 sig) 0x30 0 9 0 0 0], s.InRange s.src s.len ∧ 8 < s.len ∧ s.buf.read (s.src + 8) = none) ∧
    ((sig.take 7).length < 8 ∧ (sig.take 7 ++ [0x0B]).take 8 ≠ sig) ∧ (cTest.ok ∧ framesOf [cTest] = fTest) ∧
    (∀ rest ∈ [fIend.take 1, fIend.take 3, fIend.take 4, fIend.take 7, fTest.take 12, fTest.take 16, fTest.take 6 ++ [0x31] ++
        fTest.drop 7, fTest.take 16 ++ [0xCF], fTest],
      (put idle 0 (sig ++ fTest ++ rest)).buf.readRange 0 (sig ++ fTest ++ rest).length = some (sig ++ fTest ++ rest) ∧
      (start idle 0x30 0 (BitVec.ofNat 32 (sig ++ fTest ++ rest).length) 0 0 0).InRange 0 (sig ++ fTest ++ rest).length) ∧
    (0 < (fIend.take 1).length ∧ (fIend.take 3).length < 4) ∧ (4 ≤ (fIend.take 4).length ∧ (fIend.take 7).length < 8) ∧
    (fTest.take 12 = be32Bytes 5 ++ be32Bytes 0x74655374 ++ hello.take 4 ∧ (hello.take 4).length < (5 : Word).toNat) ∧
    (fTest.take 16 = be32Bytes 5 ++ be32Bytes 0x74655374 ++ (hello ++ [0xA1, 0xF1, 0xC5]) ∧
      (5 : Word).toNat ≤ (hello ++ [0xA1, 0xF1, 0xC5]).length ∧ (hello ++ [0xA1, 0xF1, 0xC5]).length < (5 : Word).toNat + 4) ∧
    (fTest.take 6 ++ [0x31] ++ fTest.drop 7 = be32Bytes 5 ++ be32Bytes 0x74653174 ++ (hello ++ be32Bytes 0xA1F1C5CE) ∧
      (5 : Word).toNat + 4 ≤ (hello ++ be32Bytes 0xA1F1C5CE).length ∧ isAlpha (typeByte 0x74653174 2) = false ∧
      ∀ j, j < 2 → isAlpha (typeByte 0x74653174 j) = true) ∧
    (hello.length = (5 : Word).toNat ∧ typeOk 0x74655374 = true ∧
      hello ++ be32Bytes 0xA1F1C5CF = hello ++ be32Bytes 0xA1F1C5CF ++ [] ∧
      (0xA1F1C5CF : Word) ≠ crc32 (be32Bytes 0x74655374 ++ hello) ∧
      (0xA1F1C5CE : Word) = crc32 (be32Bytes 0x74655374 ++ hello)) ∧
    [cTest].length = (Params.mk 512 1).maxChunks.toNat :=
  ⟨by decide, by decide +kernel, by decide, ⟨cTest_ok, by decide +kernel⟩, by decide +kernel, by decide, by decide, by decide,
    by decide, by decide +kernel, by decide +kernel, by decide⟩

/-- The descriptors of `full` refer to the chunks of IMG3. -/
theorem full_refers : List.Forall₂ serializing.RefersTo serializing.ct [cIhdr, cTest, cIend] :=
  .cons ⟨rfl, rfl, by decide +kernel, holds_of (by decide +kernel)⟩
    (.cons ⟨rfl, rfl, by decide +kernel, holds_of (by decide +kernel)⟩
      (.cons ⟨rfl, rfl, by decide +kernel, holds_of (by decide +kernel)⟩ .nil))

theorem witness_ContSerializeWritesTheImage : serializing.status.cvalid = true ∧
    List.Forall₂ (fun e d => d.length = e.len.toNat ∧ serializing.Holds e.addr.toNat d) serializing.ct
      [cIhdr.data, cTest.data, cIend.data] ∧
    serializing.InRange serializing.dst (imageLen serializing.ct) ∧
    ∀ e ∈ serializing.ct, ¬ Overlaps serializing.dst (imageLen serializing.ct) e.addr.toNat e.len.toNat :=
  ⟨by decide, .cons ⟨rfl, holds_of (by decide +kernel)⟩ (.cons ⟨rfl, holds_of (by decide +kernel)⟩
    (.cons ⟨rfl, holds_of (by decide +kernel)⟩ .nil)), by decide, by decide⟩

theorem witness_ContSerializeRejectsInOrder :
    (start idle 0x31 0 0 0 0 0).status.cvalid = false ∧
    (∀ s ∈ [start full 0x31 0 0 451 0 0], s.status.cvalid = true ∧ ¬ s.InRange s.dst (imageLen s.ct)) ∧
    (∀ s ∈ [start full 0x31 0 0 45 0 0], s.status.cvalid = true ∧ s.InRange s.dst (imageLen s.ct) ∧
      Overlaps s.dst (imageLen s.ct) eTest.addr.toNat eTest.len.toNat ∧ eTest ∈ s.ct) ∧
    (∀ s ∈ [start (full.setTable true [{ eTest with addr := 507 }]) 0x31 0 0 0 0 0], s.status.cvalid = true ∧
      s.InRange s.dst (imageLen s.ct) ∧ (∀ e ∈ s.ct, ¬ Overlaps s.dst (imageLen s.ct) e.addr.toNat e.len.toNat) ∧
      { eTest with addr := 507 } ∈ s.ct ∧ 4 < eTest.len.toNat ∧ s.buf.read (507 + 4) = none) := by decide +kernel

theorem witness_ContAppendAddsAtTheEnd :
    (∀ s ∈ [start (put empty 507 hello) 0x32 507 5 0 0x74655374 0], s.status.cvalid = true ∧ typeOk s.ty = true ∧
      s.InRange s.src s.len ∧ s.ct.length ≠ s.params.maxChunks.toNat ∧ hello.length = s.len ∧
      s.buf.readRange s.src 5 = some hello) ∧
    (start idle 0x32 0 0 0 0 0).status.cvalid = false ∧
    ((start empty 0x32 0 0 0 0x31323334 0).status.cvalid = true ∧ isAlpha (typeByte 0x31323334 0) = false) ∧
    (∀ s ∈ [start empty 0x32 508 5 0 0x74655374 0], typeOk s.ty = true ∧ ¬ s.InRange s.src s.len) ∧
    (∀ s ∈ [start (empty.setTable true (List.replicate 8 eIend)) 0x32 0 0 0 0x74655374 0], s.status.cvalid = true ∧
      s.InRange s.src s.len ∧ s.ct.length = s.params.maxChunks.toNat) ∧
    (∀ s ∈ [start empty 0x32 507 5 0 0x74655374 0], s.InRange s.src s.len ∧ s.ct.length ≠ s.params.maxChunks.toNat ∧
      0 < s.len ∧ s.buf.read (s.src + 0) = none) := by decide +kernel

theorem witness_ContFindReportsTheFirstMatch : (start full 0x33 0 0 0 0x49454E44 0).status.cvalid = true ∧
    full.ct[2]? = some eIend ∧ eIend.type = (start full 0x33 0 0 0 0x49454E44 0).ty ∧
    (∀ k, k < 2 → ∀ x ∈ full.ct[k]?, x.type ≠ 0x49454E44) ∧
    (∀ e ∈ full.ct, e.type ≠ (start full 0x33 0 0 0 0x54455354 0).ty) ∧
    (start idle 0x33 0 0 0 0 0).status.cvalid = false := by decide

theorem witness_ContRemoveTakesTheFirstMatch : (start full 0x34 0 0 0 0x49484452 0).status.cvalid = true ∧
    full.ct = [] ++ eIhdr :: [eTest, eIend] ∧ eIhdr.type = (start full 0x34 0 0 0 0x49484452 0).ty ∧
    (∀ z ∈ ([] : List Descriptor), z.type ≠ 0x49484452) ∧
    (∀ e ∈ full.ct, e.type ≠ (start full 0x34 0 0 0 0x69454E44 0).ty) ∧
    (start idle 0x34 0 0 0 0 0).status.cvalid = false := by decide

theorem witness_ContEntryReportsTheIndexedDescriptor : (start full 0x35 0 0 0 0 2).status.cvalid = true ∧
    full.ct[(start full 0x35 0 0 0 0 2).op.toNat]? = some eIend ∧
    full.ct.length ≤ (start full 0x35 0 0 0 0 3).op.toNat ∧ (start idle 0x35 0 0 0 0 0).status.cvalid = false := by decide

theorem witness_ContainerCommandsAreAllOrNothing :
    (start full 0x34 0 0 0 0 0).err.code = .none ∧ (∃ t, exec .contRemove (start full 0x34 0 0 0 0 0) = .next t ∧
      t.err.code ≠ .none) ∧
    ∃ t, exec .contParse (start full 0x30 513 0 0 0 0) = .next t ∧ t.err.code ≠ .none :=
  ⟨rfl, ⟨_, rfl, by decide⟩, ⟨_, rfl, by decide⟩⟩

/-- The image at 0x100 parses again, and a second serialization to 0x180 is possible. -/
theorem witness_ContainerRoundTrip : serializing.Inv ∧
    List.Forall₂ serializing.RefersTo serializing.ct [cIhdr, cTest, cIend] ∧
    ∃ t, exec .contSerialize serializing = .next t ∧ t.err.code = .none ∧
      (∃ u : State, u.params = serializing.params ∧ u.latch.srcAddr = serializing.latch.dstAddr ∧
        u.latch.srcLen = t.res.outLen ∧ u.buf = t.buf) ∧
      ∃ v w : State, v.buf = t.buf ∧ v.ct = serializing.ct ∧ exec .contSerialize v = .next w ∧ w.err.code = .none := by
  obtain ⟨t, ht, hp⟩ := next_of_check (r := exec .contSerialize serializing)
    (p := fun t => t.err.code == .none && check (exec .contSerialize { start full 0x31 0 0 0x180 0 0 with buf := t.buf })
      (fun v => v.err.code == .none)) (by decide +kernel)
  rw [Bool.and_eq_true] at hp
  obtain ⟨w, hw, hw'⟩ := next_of_check hp.2
  exact ⟨serializing_inv, full_refers, t, ht, by simpa using hp.1,
    ⟨start { t with buf := t.buf, params := serializing.params } 0x30 serializing.latch.dstAddr t.res.outLen 0 0 0,
      rfl, rfl, rfl, rfl⟩,
    { start full 0x31 0 0 0x180 0 0 with buf := t.buf }, w, rfl, rfl, hw, by simpa using hw'⟩

/-- `full` after the host has written 0x48 at address 41 (K27), serializing to 0x100. -/
def broken : State := start (put full 41 [0x48]) 0x31 0 0 0x100 0 0

theorem broken_inv : broken.Inv where
  params := by decide
  bufCanonical := by decide +kernel
  bufInside := by decide +kernel
  tableFits := by decide
  noContainer := by decide
  typesAreLetters := by decide
  regionsInRange := by decide
  errFlag := by decide
  errClear := by decide
  neverNotUtf8 := by decide
  flagsReserved := fun k _ => by show (0#32).getLsbD k = false; simp
  flagsValid := by decide
  foundNoErr := by decide
  busyStarted := by decide

theorem witness_ReparseOfABrokenChunkMismatches : broken.Inv ∧ broken.ct = [eIhdr] ++ eTest :: [eIend] ∧
    List.Forall₂ broken.RefersTo [eIhdr] [cIhdr] ∧ [0x48, 0x65, 0x6C, 0x6C, 0x6F].length = eTest.len.toNat ∧
    broken.Holds eTest.addr.toNat [0x48, 0x65, 0x6C, 0x6C, 0x6F] ∧
    eTest.crc ≠ crc32 (be32Bytes eTest.type ++ [0x48, 0x65, 0x6C, 0x6C, 0x6F]) ∧
    ∃ t, exec .contSerialize broken = .next t ∧ t.err.code = .none ∧
      ∃ u : State, u.params = broken.params ∧ u.latch.srcAddr = broken.latch.dstAddr ∧ u.latch.srcLen = t.res.outLen ∧
        u.buf = t.buf := by
  obtain ⟨t, ht, hp⟩ := next_of_check (r := exec .contSerialize broken) (p := fun t => t.err.code == .none)
    (by decide +kernel)
  refine ⟨broken_inv, rfl,
    .cons ⟨rfl, rfl, by decide +kernel, holds_of (by decide +kernel)⟩ .nil, rfl, holds_of (by decide +kernel),
    by decide +kernel, t, ht, by simpa using hp,
    start { t with params := broken.params } 0x30 broken.latch.dstAddr t.res.outLen 0 0 0, rfl, rfl, rfl, rfl⟩

theorem witness_EveryStepKeepsTheInvariant : serializing.Inv ∧ ∃ t, step serializing = .next t :=
  ⟨serializing_inv, (next_of_check (p := fun _ => true) (by decide +kernel)).imp fun _ h => h.1⟩

theorem witness_ResetStateHasTheInvariant : Params.wf { bufBytes := 32, maxChunks := 1 } = true ∧
    Params.wf { bufBytes := 0xFFFFFFFF, maxChunks := 0xFFFFFFFF } = true := by decide

end Sys2Proof.Tests
end

section
/-! PROOFS. The register space (10_state.md R45) and the reset values (R47). -/

namespace Sys2Proof.Machine

/-! ## The register map -/

/-- The offset at which R45 places a register: `registerAt` read the other way, as `registerAt_eq_some_iff` says. -/
def Reg.offset : Reg → Nat
  | .id => 0x00
  | .ctrl => 0x04
  | .status => 0x08
  | .cmd => 0x0C
  | .errCode => 0x10
  | .errField => 0x14
  | .errOffset => 0x18
  | .errIndex => 0x1C
  | .srcAddr => 0x20
  | .srcLen => 0x24
  | .dstAddr => 0x28
  | .type => 0x2C
  | .opa => 0x30
  | .crcState => 0x34
  | .crcValue => 0x38
  | .typeFlags => 0x3C
  | .rLen => 0x40
  | .rType => 0x44
  | .rCrc => 0x48
  | .rDataAddr => 0x4C
  | .rIndex => 0x50
  | .rOutLen => 0x54
  | .ctCount => 0x58
  | .bufSize => 0x5C
  | .ctCap => 0x60

@[simp] theorem registerAt_offset (r : Reg) : registerAt r.offset = some r := by cases r <;> rfl

@[simp] theorem registerAccessWf_offset (r : Reg) : registerAccessWf 32 r.offset = true := by cases r <;> rfl

theorem registerAt_eq_some_iff {off : Nat} {r : Reg} : registerAt off = some r ↔ off = r.offset := by
  refine ⟨fun h => ?_, fun h => h ▸ registerAt_offset r⟩
  have named : ∀ off < 0x64, ∀ r, registerAt off = some r → off = r.offset := by decide +kernel
  by_cases ho : off < 0x64
  · exact named off ho r h
  · rw [registerAt_none (by omega)] at h; cases h

theorem registerAccessWf_eq_false_iff {width off : Nat} :
    registerAccessWf width off = false ↔ width ≠ 32 ∨ off % 4 ≠ 0 ∨ 0x100 ≤ off := by
  rw [← Bool.not_eq_true, registerAccessWf_iff]
  omega

/-! ## Register accesses of an idle block -/

/-- BUSY being 0, STATUS shows ERR, FOUND and CVALID at bits 1 to 3 (R24). -/
theorem Status.word_idle {t : Status} (hb : t.busy = false) :
    t.word = BitVec.ofNat 32 (2 * t.err.toNat + 4 * t.found.toNat + 8 * t.cvalid.toNat) := by
  obtain ⟨busy, err, found, cvalid⟩ := t
  subst hb
  revert err found cvalid
  decide

/-- Only CTRL, CMD and the operand registers take a write (R45). -/
theorem State.writeReg_readOnly (s : State) {r : Reg} (v : Word)
    (h : r ∉ [.ctrl, .cmd, .srcAddr, .srcLen, .dstAddr, .type, .opa]) : s.writeReg r v = s := by
  cases r <;> simp [State.writeReg] at h ⊢

/-- Clearing bit 0 of CTRL asks for nothing (R23). -/
theorem State.writeReg_ctrl_bit0_clear (s : State) {v : Word} (hv : v.getLsbD 0 = false) :
    s.writeReg .ctrl v = s := by
  simp only [State.writeReg, hv, Bool.false_eq_true, if_false]

theorem hostRead_malformed (s : State) {width off : Nat} (h : registerAccessWf width off = false) :
    hostRead s width off = .fault .registerAccessMalformed := by
  simp [hostRead, h]

theorem hostWrite_malformed (s : State) {width off : Nat} (v : Word) (h : registerAccessWf width off = false) :
    hostWrite s width off v = .fault .registerAccessMalformed := by
  simp [hostWrite, h]

section Idle

variable {s : State} (hb : s.status.busy = false)
include hb

theorem hostRead_register (r : Reg) : hostRead s 32 r.offset = .next (s.reply (.word (s.readReg r))) := by
  simp [hostRead, hb]

theorem hostRead_reserved {off : Nat} (hw : registerAccessWf 32 off = true) (hr : registerAt off = none) :
    hostRead s 32 off = .next (s.reply (.word 0)) := by
  simp [hostRead, hw, hr, hb]

theorem hostWrite_register (r : Reg) (v : Word) : hostWrite s 32 r.offset v = .next (s.writeReg r v) := by
  simp [hostWrite, hb]

theorem hostWrite_reserved {off : Nat} (v : Word) (hw : registerAccessWf 32 off = true)
    (hr : registerAt off = none) : hostWrite s 32 off v = .next s := by
  simp [hostWrite, hw, hr, hb]

/-- R45: a write at an offset of no writable register is ignored, whether the offset is reserved or read-only. -/
theorem hostWrite_ignored {off : Nat} (v : Word) (hw : registerAccessWf 32 off = true)
    (hoff : off ∉ [0x04, 0x0C, 0x20, 0x24, 0x28, 0x2C, 0x30]) : hostWrite s 32 off v = .next s := by
  rcases hr : registerAt off with _ | r
  · exact hostWrite_reserved hb v hw hr
  · obtain rfl := registerAt_eq_some_iff.mp hr
    have hro : r ∉ [.ctrl, .cmd, .srcAddr, .srcLen, .dstAddr, .type, .opa] :=
      fun hmem => hoff (List.mem_map_of_mem (f := Reg.offset) hmem)
    rw [hostWrite_register hb, s.writeReg_readOnly v hro]

/-- An idle block's step is its host's next access. -/
theorem step_idle_cons (op : HostOp) (rest : List HostOp) :
    step { s with inputs := op :: rest } = hostAccess { s with inputs := rest } op := by
  rw [step_idle (by exact hb), hostTurn_cons rfl]

theorem step_rd_register (rest : List HostOp) (r : Reg) :
    step { s with inputs := .rd 32 r.offset :: rest } =
      .next { s with inputs := rest, replies := .word (s.readReg r) :: s.replies } :=
  (step_idle_cons hb _ rest).trans (hostRead_register (by exact hb) r)

theorem step_wr_register (rest : List HostOp) (r : Reg) (v : Word) :
    step { s with inputs := .wr 32 r.offset v :: rest } = .next ({ s with inputs := rest }.writeReg r v) :=
  (step_idle_cons hb _ rest).trans (hostWrite_register (by exact hb) r v)

end Idle

/-! ## The resets -/

@[simp] theorem State.resetRegs_params (s : State) (m : Memory) : (s.resetRegs m).params = s.params := rfl

@[simp] theorem State.resetRegs_buf (s : State) (m : Memory) : (s.resetRegs m).buf = m := rfl

/-- The two resets differ in the buffer only: over any buffer the registers are at their reset values (R47). -/
theorem State.atReset_resetRegs (s : State) (m : Memory) : (s.resetRegs m).AtReset := by
  refine ⟨fun r => ?_, rfl, rfl⟩
  cases r
  case crcValue => exact BitVec.xor_self
  all_goals rfl

/-- The state after hardware reset is one that a further hardware reset does not change. -/
theorem State.hardReset_resetOf (p : Params) : (State.resetOf p).hardReset = State.resetOf p := rfl

/-- With no command running there is nothing to abort (R262). -/
theorem State.abortedBuf_idle {s : State} (hb : s.status.busy = false) : s.abortedBuf = s.buf := by
  simp [State.abortedBuf, hb]

/-! ## The obligations -/

/-- Settles O14: a read or write at a register's offset is `readReg` or `writeReg` of that register, and the offsets of no
writable register ignore writes. -/
theorem registerSpaceReadsAndWrites : Obligations.RegisterSpaceReadsAndWrites := by
  intro s rest hb
  have rd := step_rd_register hb rest
  have wr := step_wr_register hb rest
  have hstatus := rd .status
  rw [State.readReg, Status.word_idle hb] at hstatus
  refine ⟨?reads, ?reserved, ?ignored, wr .srcAddr, wr .srcLen, wr .dstAddr, wr .type, wr .opa, ?ctrl, ?malformed⟩
  case reads =>
    simp only [List.forall_mem_cons]
    exact ⟨rd .id, rd .ctrl, rd .cmd, hstatus, rd .errCode, rd .errField, rd .errOffset, rd .errIndex,
      rd .srcAddr, rd .srcLen, rd .dstAddr, rd .type, rd .opa, rd .crcState, rd .crcValue, rd .typeFlags,
      rd .rLen, rd .rType, rd .rCrc, rd .rDataAddr, rd .rIndex, rd .rOutLen, rd .ctCount, rd .bufSize, rd .ctCap,
      List.forall_mem_nil _⟩
  case reserved =>
    intro off hlo hhi halign
    have hw : registerAccessWf 32 off = true := (registerAccessWf_iff 32 off).mpr ⟨rfl, halign, by omega⟩
    exact (step_idle_cons hb _ rest).trans (hostRead_reserved (by exact hb) hw (registerAt_none hlo))
  case ignored =>
    intro off v hlt halign hoff
    have hw : registerAccessWf 32 off = true := (registerAccessWf_iff 32 off).mpr ⟨rfl, halign, hlt⟩
    exact (step_idle_cons hb _ rest).trans (hostWrite_ignored (by exact hb) v hw hoff)
  case ctrl =>
    intro v hv
    exact (wr .ctrl v).trans (congrArg _ (State.writeReg_ctrl_bit0_clear _ hv))
  case malformed =>
    intro width off v h
    have hw := registerAccessWf_eq_false_iff.mpr h
    exact ⟨(step_idle_cons hb _ rest).trans (hostRead_malformed _ hw),
      (step_idle_cons hb _ rest).trans (hostWrite_malformed _ v hw)⟩

/-- Settles O19: both resets are `resetRegs` over some buffer, empty for the hardware reset and, with no command to abort,
the old one for the soft reset. -/
theorem resetStateHasResetValues : Obligations.ResetStateHasResetValues := by
  refine ⟨fun p => ⟨rfl, ?_, Memory.read_nil⟩, fun s => ⟨s.atReset_resetRegs [], rfl, Memory.read_nil⟩,
    fun s => ⟨s.atReset_resetRegs s.abortedBuf, rfl, fun hb a => ?_⟩⟩
  · rw [← State.hardReset_resetOf]
    exact State.atReset_resetRegs _ []
  · rw [State.softReset, State.resetRegs_buf, State.abortedBuf_idle hb]

end Sys2Proof.Machine
end

section
/-! PROOFS. The buffer port (20_memory.md R61). -/

namespace Sys2Proof.Machine

/-! ## Buffer accesses of an idle block -/

section Idle

variable {s : State} {a : Nat} (hb : s.status.busy = false)
include hb

theorem bufWrite_inside (b : Byte) (ha : a < s.params.bufBytes.toNat) :
    bufWrite s a b = .next (s.setBuf (s.buf.write a b)) := by
  simp [bufWrite, hb, ha]

theorem bufWrite_outside (b : Byte) (ha : s.params.bufBytes.toNat ≤ a) :
    bufWrite s a b = .fault .bufferAddressOutside := by
  simp [bufWrite, hb, ha]

theorem bufRead_written {b : Byte} (ha : a < s.params.bufBytes.toNat) (hr : s.buf.read a = some b) :
    bufRead s a = .next (s.reply (.byte b)) := by
  simp [bufRead, hb, ha, hr]

theorem bufRead_unwritten (ha : a < s.params.bufBytes.toNat) (hr : s.buf.read a = none) :
    bufRead s a = .fault .hostReadUnwritten := by
  simp [bufRead, hb, ha, hr]

theorem bufRead_outside (ha : s.params.bufBytes.toNat ≤ a) : bufRead s a = .fault .bufferAddressOutside := by
  simp [bufRead, hb, ha]

end Idle

/-! ## The obligation -/

/-- Settles O17: an idle block's step is its host's buffer access, and a store is seen at its own address only. -/
theorem bufferPortStoresAndReturnsBytes : Obligations.BufferPortStoresAndReturnsBytes := by
  intro s a b rest hb
  have stepRead : step { s with inputs := .rb a :: rest } = bufRead { s with inputs := rest } a :=
    step_idle_cons hb (.rb a) rest
  have stepWrite : step { s with inputs := .wb a b :: rest } = bufWrite { s with inputs := rest } a b :=
    step_idle_cons hb (.wb a b) rest
  rw [stepRead, stepWrite]
  have hidle : ({ s with inputs := rest } : State).status.busy = false := hb
  refine ⟨fun ha => ⟨_, bufWrite_inside hidle b ha, rfl, ?same, ?other⟩, bufRead_written hidle,
    bufRead_unwritten hidle, fun ha => ⟨bufWrite_outside hidle b ha, bufRead_outside hidle ha⟩⟩
  case same => rw [State.setBuf_buf, Memory.read_write, if_pos rfl]
  case other =>
    intro x hx
    rw [State.setBuf_buf, Memory.read_write, if_neg hx]

end Sys2Proof.Machine
end

section
/-! PROOFS. The decoder (30_encoding.md R80 to R82), by which every command's word is known. -/

namespace Sys2Proof

/-- The opcode map of R81 is one to one: no two opcodes select one command. -/
theorem commandOfOpcode_eq_some_iff {op : Byte} {i : Instr} : commandOfOpcode op = some i ↔ op = i.opcode := by
  have eachByte : ∀ op : Byte, ∀ i ∈ commandOfOpcode op, op = i.opcode := by decide +kernel
  refine ⟨eachByte op i, ?_⟩
  rintro rfl
  cases i <;> rfl

/-- A command word is its reserved field over its opcode (R80). -/
theorem word_eq_append_iff {w : Word} {rsv : BitVec 24} {op : Byte} :
    w = rsv ++ op ↔ w.extractLsb' 8 24 = rsv ∧ w.extractLsb' 0 8 = op := by
  constructor
  · rintro rfl
    exact ⟨BitVec.extractLsb'_append_eq_left, BitVec.extractLsb'_append_eq_right⟩
  · rintro ⟨rfl, rfl⟩
    calc w = w.extractLsb' 0 (24 + 8) := BitVec.extractLsb'_eq_self.symm
      _ = w.extractLsb' 8 24 ++ w.extractLsb' 0 8 := (BitVec.extractLsb'_append_extractLsb'_eq_extractLsb' rfl).symm

/-- RSV is 0 in a well-formed word (R80). -/
theorem commandWordWf_iff {w : Word} : commandWordWf w = true ↔ w.extractLsb' 8 24 = 0 := beq_iff_eq

/-- `encode` gives the one word of each command (R82). -/
theorem decode_eq_ok_iff {w : Word} {i : Instr} : decode w = .ok i ↔ w = encode i := by
  rw [encode, word_eq_append_iff, ← commandOfOpcode_eq_some_iff, ← commandWordWf_iff, decode]
  by_cases hrsv : commandWordWf w = true
  · rcases hop : commandOfOpcode (w.extractLsb' 0 8) with _ | j <;> simp [hrsv]
  · simp [hrsv]

end Sys2Proof
end

section
/-! PROOFS. The four commands of the CRC unit (40_crc.md R112 to R118). -/

namespace Sys2Proof.Machine

/-! ## What the commands share -/

/-- A command of the CRC unit that succeeds writes CRC_STATE and clears BUSY, and does nothing else. -/
theorem State.done_setCrcState (s : State) (v : Word) :
    (s.setCrcState v).done = .next { s with crcState := v, status := { s.status with busy := false } } := rfl

/-- CRC_UPDATE and CRC_COMPUTE are one operation from two values of the CRC state (R114, R118), as `exec_crcUpdate` and
`exec_crcCompute` say. -/
def State.foldRange (s : State) (c : Word) : Result :=
  if ¬ s.InRange s.src s.len then s.fail (errorAt .rangeError .operand 0x20 0)
  else s.withBytes s.src s.len fun d => (s.setCrcState (crcFold c d)).done

theorem exec_crcInit (s : State) : exec .crcInit s = (s.setCrcState 0xFFFFFFFF).done := rfl

theorem exec_crcUpdate (s : State) : exec .crcUpdate s = s.foldRange s.crcState := rfl

theorem exec_crcUpdateByte (s : State) :
    exec .crcUpdateByte s = (s.setCrcState (crcStep s.crcState s.opByte)).done := rfl

theorem exec_crcCompute (s : State) : exec .crcCompute s = s.foldRange 0xFFFFFFFF := rfl

/-- CRC_VALUE is computed from CRC_STATE (R36), so after a fold from the initial value it is the CRC32 of R110. -/
theorem readReg_crcValue_of_crcFold {t : State} {d : List Byte} (h : t.crcState = crcFold 0xFFFFFFFF d) :
    t.readReg .crcValue = crc32 d := by
  rw [State.readReg, h, crc32]

section FoldRange

variable {s : State}

theorem State.foldRange_outside (c : Word) (h : ¬ s.InRange s.src s.len) :
    s.foldRange c = .next (s.failed { code := .rangeError, field := .operand, offset := 0x20, index := 0 }) := by
  rw [State.foldRange, if_pos h]
  rfl

theorem State.foldRange_inside (c : Word) (h : s.InRange s.src s.len) :
    s.foldRange c = s.withBytes s.src s.len fun d => (s.setCrcState (crcFold c d)).done :=
  if_neg (not_not.mpr h)

theorem State.foldRange_of_holds (c : Word) {d : List Byte} (h : s.InRange s.src s.len) (hl : d.length = s.len)
    (hd : s.Holds s.src d) : s.foldRange c =
      .next { s with crcState := crcFold c d, status := { s.status with busy := false } } := by
  rw [State.foldRange_inside c h, State.withBytes_of_holds _ hl hd, State.done_setCrcState]

theorem State.foldRange_of_unwritten (c : Word) (h : s.InRange s.src s.len) (hu : s.Unwritten s.src s.len) :
    s.foldRange c = .fault .commandReadUnwritten := by
  rw [State.foldRange_inside c h, State.withBytes_of_unwritten _ hu]

end FoldRange

/-! ## The obligations -/

/-- Settles O25: the range is folded from the CRC_STATE there is. -/
theorem crcUpdateFoldsTheRange : Obligations.CrcUpdateFoldsTheRange := by
  refine ⟨fun w => decode_eq_ok_iff, fun s => ?_⟩
  rw [exec_crcUpdate]
  exact ⟨fun d => State.foldRange_of_holds _, State.foldRange_outside _, State.foldRange_of_unwritten _⟩

/-- Settles O27: the range is folded from the initial value, so CRC_VALUE is its CRC32. -/
theorem crcComputeGivesTheCrcOfTheRange : Obligations.CrcComputeGivesTheCrcOfTheRange := by
  refine ⟨fun w => decode_eq_ok_iff, fun s => ?_⟩
  rw [exec_crcCompute]
  exact ⟨fun d h hl hd => ⟨_, State.foldRange_of_holds _ h hl hd, rfl, readReg_crcValue_of_crcFold rfl⟩,
    State.foldRange_outside _, State.foldRange_of_unwritten _⟩

/-- Settles O24: the initial value equals the mask by which CRC_VALUE differs from CRC_STATE (R36). -/
theorem crcInitSetsTheInitialValue : Obligations.CrcInitSetsTheInitialValue :=
  ⟨fun _ => decode_eq_ok_iff, fun s => ⟨_, (exec_crcInit s).trans (s.done_setCrcState _), rfl, BitVec.xor_self⟩⟩

/-- Settles O26: `opByte` is OP[7:0], and nothing else enters the step. -/
theorem crcUpdateByteFeedsTheLowByte : Obligations.CrcUpdateByteFeedsTheLowByte :=
  ⟨fun _ => decode_eq_ok_iff, fun s => (exec_crcUpdateByte s).trans (s.done_setCrcState _)⟩

end Sys2Proof.Machine
end

section
/-! PROOFS. The two commands of the type code unit (41_type_code.md R135, R136). -/

namespace Sys2Proof.Machine

/-! ## What the commands share -/

/-- The code that be32bytes lay out is read back (R12, R90). -/
@[simp] theorem word32At_be32Bytes (t : Word) : word32At (be32Bytes t) 0 = t := be32_extract t

/-- Go on where the four bytes of the type code are letters, or fail at the first that is not, numbering them from `base`.
This is the one check of TYPE_PARSE and the last of TYPE_PARSE_TEXT, as `exec_typeParse` and `exec_typeParseText_four` say. -/
def State.withLetters (s : State) (t : Word) (base : Nat) (r : Result) : Result :=
  if !typeOk t then s.fail (errorAt .invalidTypeBytes .type (base + firstBad t) 0) else r

theorem exec_typeParse (s : State) :
    exec .typeParse s = s.withLetters s.ty 0 (s.setTypeFlags (typeFlagsOf s.ty)).done := by
  rw [State.withLetters, Nat.zero_add]
  rfl

section WithLetters

variable {s : State} {t : Word} (base : Nat) (r : Result)

theorem State.withLetters_of_letters (h : ∀ k, k < 4 → isAlpha (typeByte t k) = true) :
    s.withLetters t base r = r := by
  rw [State.withLetters, (typeOk_iff t).mpr h]
  rfl

theorem State.withLetters_of_firstBad {k : Nat} (hk : k < 4) (hbad : isAlpha (typeByte t k) = false)
    (hmin : ∀ j, j < k → isAlpha (typeByte t j) = true) : s.withLetters t base r = .next (s.failed
      { code := .invalidTypeBytes, field := .type, offset := BitVec.ofNat 32 (base + k), index := 0 }) := by
  rw [State.withLetters, typeOk_eq_false t k hk hbad, firstBad_eq t k hk hbad hmin]
  rfl

end WithLetters

/-! ## The checks of TYPE_PARSE_TEXT before its read -/

section TypeParseText

variable {s : State}

theorem exec_typeParseText_outside (h : ¬ s.InRange s.src s.len) : exec .typeParseText s =
    .next (s.failed { code := .rangeError, field := .operand, offset := 0x20, index := 0 }) :=
  if_pos h

theorem exec_typeParseText_wrongLength (h : s.InRange s.src s.len) (hl : s.len ≠ 4) : exec .typeParseText s =
    .next (s.failed { code := .wrongLength, field := .type, offset := s.latch.srcAddr, index := 0 }) := by
  have hsrc : BitVec.ofNat 32 s.src = s.latch.srcAddr := (BitVec.ofNat_toNat 32 _).trans (BitVec.setWidth_eq _)
  rw [← hsrc]
  exact (if_neg (not_not.mpr h)).trans (if_pos hl)

theorem exec_typeParseText_four (h : s.InRange s.src s.len) (hl : s.len = 4) : exec .typeParseText s =
    s.withBytes s.src 4 fun text => s.withLetters (word32At text 0) s.src
      ((s.setType (word32At text 0)).setTypeFlags (typeFlagsOf (word32At text 0))).done :=
  (if_neg (not_not.mpr h)).trans (if_neg (not_not.mpr hl))

theorem exec_typeParseText_of_holds {t : Word} (h : s.InRange s.src s.len) (hl : s.len = 4)
    (ht : s.Holds s.src (be32Bytes t)) : exec .typeParseText s =
      s.withLetters t s.src ((s.setType t).setTypeFlags (typeFlagsOf t)).done := by
  rw [exec_typeParseText_four h hl, State.withBytes_of_holds _ (be32Bytes_length t) ht, word32At_be32Bytes]

theorem exec_typeParseText_of_unwritten (h : s.InRange s.src s.len) (hl : s.len = 4) (hu : s.Unwritten s.src 4) :
    exec .typeParseText s = .fault .commandReadUnwritten := by
  rw [exec_typeParseText_four h hl, State.withBytes_of_unwritten _ hu]

end TypeParseText

/-! ## The obligations -/

/-- Settles O33: the latched TYPE is checked, its bytes numbered from 0. -/
theorem typeParseReportsFlagsOrFirstBadByte : Obligations.TypeParseReportsFlagsOrFirstBadByte := by
  refine ⟨fun w => decode_eq_ok_iff, fun s => ?_⟩
  rw [exec_typeParse]
  refine ⟨State.withLetters_of_letters 0 _, fun k hk hbad hmin => ?_⟩
  simpa only [Nat.zero_add] using State.withLetters_of_firstBad 0 _ hk hbad hmin

/-- Settles O34: the code read at SRC is checked, its bytes numbered from SRC. -/
theorem typeParseTextLoadsTypeOrFails : Obligations.TypeParseTextLoadsTypeOrFails := by
  refine ⟨fun w => decode_eq_ok_iff, fun s => ⟨exec_typeParseText_outside, exec_typeParseText_wrongLength,
    exec_typeParseText_of_unwritten, fun t h hl ht => ?_⟩⟩
  rw [exec_typeParseText_of_holds h hl ht]
  exact ⟨State.withLetters_of_letters s.src _, fun k => State.withLetters_of_firstBad s.src _⟩

end Sys2Proof.Machine
end

section
/-! PROOFS. The four commands that edit or query the chunk table (43_container.md R176 to R182). -/

namespace Sys2Proof.Machine

/-! ## What the commands share -/

section WithContainer

variable {s : State} (k : Result)

theorem State.withContainer_of_valid (hv : s.status.cvalid = true) : s.withContainer k = k :=
  if_pos hv

/-- R170: with no valid container the commands end before their other checks. -/
theorem State.withContainer_of_invalid (hv : s.status.cvalid = false) : s.withContainer k =
    .next (s.failed { code := .noContainer, field := .operand, offset := 0, index := 0 }) := by
  rw [State.withContainer, hv]
  rfl

end WithContainer

/-- The registers that R46 gives the four commands in common. -/
theorem State.done_report (s : State) (e : Descriptor) (j : Nat) : (s.report e j).done = .next { s with
    res := { s.res with len := e.len, type := e.type, crc := e.crc, dataAddr := e.addr, index := BitVec.ofNat 32 j }
    typeFlags := typeFlagsOf e.type
    status := { s.status with busy := false } } := rfl

/-- An edit of a valid container keeps it valid, so the table alone changes. -/
theorem State.setTable_true {s : State} (hv : s.status.cvalid = true) (l : List Descriptor) :
    s.setTable true l = { s with ct := l } := by
  rw [State.setTable, ← hv]

/-! ## CONT_APPEND -/

/-- The descriptor CONT_APPEND makes of the latched operands and the bytes of the data range (R176). -/
def State.newEntry (s : State) (d : List Byte) : Descriptor :=
  { type := s.ty, len := s.latch.srcLen, crc := crc32 (be32Bytes s.ty ++ d), addr := s.latch.srcAddr }

/-- What is left of CONT_APPEND once the container and the type code have passed, as `exec_contAppend` says. -/
def State.appendRange (s : State) : Result :=
  if ¬ s.InRange s.src s.len then s.fail (errorAt .rangeError .operand 0x20 0)
  else if s.ct.length = s.params.maxChunks.toNat then s.fail (errorAt .capacityExceeded .operand 0 0)
  else s.withBytes s.src s.len fun d =>
    ((s.setTable true (s.ct ++ [s.newEntry d])).report (s.newEntry d) s.ct.length).done

theorem exec_contAppend (s : State) :
    exec .contAppend s = s.withContainer (s.withLetters s.ty 0 s.appendRange) := by
  rw [State.withLetters, Nat.zero_add]
  rfl

section ContAppend

variable {s : State}

theorem exec_contAppend_of_firstBad {k : Nat} (hv : s.status.cvalid = true) (hk : k < 4)
    (hbad : isAlpha (typeByte s.ty k) = false) (hmin : ∀ j, j < k → isAlpha (typeByte s.ty j) = true) :
    exec .contAppend s = .next (s.failed
      { code := .invalidTypeBytes, field := .type, offset := BitVec.ofNat 32 k, index := 0 }) := by
  rw [exec_contAppend, State.withContainer_of_valid _ hv, State.withLetters_of_firstBad 0 _ hk hbad hmin, Nat.zero_add]

theorem exec_contAppend_of_typeOk (hv : s.status.cvalid = true) (ht : typeOk s.ty = true) :
    exec .contAppend s = s.appendRange := by
  rw [exec_contAppend, State.withContainer_of_valid _ hv, State.withLetters_of_letters 0 _ ((typeOk_iff s.ty).mp ht)]

theorem State.appendRange_outside (h : ¬ s.InRange s.src s.len) : s.appendRange =
    .next (s.failed { code := .rangeError, field := .operand, offset := 0x20, index := 0 }) :=
  if_pos h

theorem State.appendRange_full (h : s.InRange s.src s.len) (hn : s.ct.length = s.params.maxChunks.toNat) :
    s.appendRange = .next (s.failed { code := .capacityExceeded, field := .operand, offset := 0, index := 0 }) :=
  (if_neg (not_not.mpr h)).trans (if_pos hn)

theorem State.appendRange_fits (h : s.InRange s.src s.len) (hn : s.ct.length ≠ s.params.maxChunks.toNat) :
    s.appendRange = s.withBytes s.src s.len fun d =>
      ((s.setTable true (s.ct ++ [s.newEntry d])).report (s.newEntry d) s.ct.length).done :=
  (if_neg (not_not.mpr h)).trans (if_neg hn)

end ContAppend

/-! ## CONT_FIND, CONT_REMOVE and CONT_ENTRY -/

/-- The first match told by its index instead of by the descriptors around it. -/
theorem findFirst_of_getElem? {ty : Word} {l : List Descriptor} {j : Nat} {e : Descriptor} (hj : l[j]? = some e)
    (he : e.type = ty) (hmin : ∀ k x, k < j → l[k]? = some x → x.type ≠ ty) : findFirst ty 0 l = some (j, e) := by
  obtain ⟨hlt, hget⟩ := List.getElem?_eq_some_iff.mp hj
  have hsplit : l.take j ++ e :: l.drop (j + 1) = l := by
    rw [← hget, ← List.drop_eq_getElem_cons hlt, List.take_append_drop]
  have hbefore : ∀ z ∈ l.take j, z.type ≠ ty := by
    intro z hz
    obtain ⟨k, hk, hkz⟩ := List.mem_take_iff_getElem.mp hz
    exact hmin k z (by omega) (List.getElem?_eq_some_iff.mpr ⟨_, hkz⟩)
  have hfind := findFirst_append (k := 0) (y := l.drop (j + 1)) he hbefore
  rwa [hsplit, Nat.zero_add, List.length_take_of_le hlt.le] at hfind

section Lookup

variable {s : State} {j : Nat} {e : Descriptor} (hv : s.status.cvalid = true)
include hv

theorem exec_contFind_of_some (hf : findFirst s.ty 0 s.ct = some (j, e)) :
    exec .contFind s = ((s.setFound true).report e j).done := by
  rw [exec, execContFind, State.withContainer_of_valid _ hv, hf]

theorem exec_contFind_of_none (hf : findFirst s.ty 0 s.ct = none) : exec .contFind s = s.done := by
  rw [exec, execContFind, State.withContainer_of_valid _ hv, hf]

theorem exec_contRemove_of_some (hf : findFirst s.ty 0 s.ct = some (j, e)) :
    exec .contRemove s = ((s.setTable true (s.ct.eraseIdx j)).report e j).done := by
  rw [exec, execContRemove, State.withContainer_of_valid _ hv, hf]

theorem exec_contRemove_of_none (hf : findFirst s.ty 0 s.ct = none) : exec .contRemove s =
    .next (s.failed { code := .chunkNotFound, field := .operand, offset := 0x2C, index := 0 }) := by
  rw [exec, execContRemove, State.withContainer_of_valid _ hv, hf]
  rfl

theorem exec_contEntry_of_some (hget : s.ct[s.op.toNat]? = some e) :
    exec .contEntry s = (s.report e s.op.toNat).done := by
  rw [exec, execContEntry, State.withContainer_of_valid _ hv, hget]

theorem exec_contEntry_of_none (hget : s.ct[s.op.toNat]? = none) : exec .contEntry s =
    .next (s.failed { code := .badIndex, field := .operand, offset := 0x30, index := 0 }) := by
  rw [exec, execContEntry, State.withContainer_of_valid _ hv, hget]
  rfl

end Lookup

/-! ## The obligations -/

/-- Settles O46: container, type code, range and capacity are checked in this order, and only then is the range read. -/
theorem contAppendAddsAtTheEnd : Obligations.ContAppendAddsAtTheEnd := by
  refine ⟨fun w => decode_eq_ok_iff, fun s => ⟨?appends, State.withContainer_of_invalid _,
    fun k => exec_contAppend_of_firstBad, ?outside, ?full, ?unwritten⟩⟩
  case appends =>
    intro d hv ht h hn hl hd
    rw [exec_contAppend_of_typeOk hv ht, State.appendRange_fits h hn, State.withBytes_of_holds _ hl hd,
      State.setTable_true hv, State.done_report]
    rfl
  case outside =>
    intro hv ht h
    rw [exec_contAppend_of_typeOk hv ht, State.appendRange_outside h]
  case full =>
    intro hv ht h hn
    rw [exec_contAppend_of_typeOk hv ht, State.appendRange_full h hn]
  case unwritten =>
    intro hv ht h hn hu
    rw [exec_contAppend_of_typeOk hv ht, State.appendRange_fits h hn, State.withBytes_of_unwritten _ hu]

/-- Settles O47: the search answers with the first match, and without one the command only finishes. -/
theorem contFindReportsTheFirstMatch : Obligations.ContFindReportsTheFirstMatch := by
  refine ⟨fun w => decode_eq_ok_iff, fun s => ⟨fun j e hv hj he hmin => ?_,
    fun hv hno => exec_contFind_of_none hv (findFirst_none.mpr hno), State.withContainer_of_invalid _⟩⟩
  rw [exec_contFind_of_some hv (findFirst_of_getElem? hj he hmin), State.done_report]
  rfl

/-- Settles O48: the index of the first match is the number of descriptors before it, and erasing there leaves the rest. -/
theorem contRemoveTakesTheFirstMatch : Obligations.ContRemoveTakesTheFirstMatch := by
  refine ⟨fun w => decode_eq_ok_iff, fun s => ⟨fun x y e hv hct he hx => ?_,
    fun hv hno => exec_contRemove_of_none hv (findFirst_none.mpr hno), State.withContainer_of_invalid _⟩⟩
  have hfind : findFirst s.ty 0 s.ct = some (x.length, e) := by rw [hct, findFirst_append he hx, Nat.zero_add]
  have herase : s.ct.eraseIdx x.length = x ++ y := by
    rw [hct, List.eraseIdx_append_of_length_le le_rfl, Nat.sub_self, List.eraseIdx_cons_zero]
  rw [exec_contRemove_of_some hv hfind, herase, State.setTable_true hv, State.done_report]

/-- Settles O49: the table is read at all 32 bits of OPA, so R_INDEX gets OPA itself. -/
theorem contEntryReportsTheIndexedDescriptor : Obligations.ContEntryReportsTheIndexedDescriptor := by
  refine ⟨fun w => decode_eq_ok_iff, fun s => ⟨fun e hv hget => ?_,
    fun hv hlen => exec_contEntry_of_none hv (List.getElem?_eq_none hlen), State.withContainer_of_invalid _⟩⟩
  rw [exec_contEntry_of_some hv hget, State.done_report, BitVec.ofNat_toNat, BitVec.setWidth_eq]

end Sys2Proof.Machine
end

section
/-! PROOFS. The flag word of a type code (41_type_code.md R137). -/

namespace Sys2Proof.Machine

/-! ## Its bits -/

/-- The flag word is one number for each case of its five predicates, so a property of it may be checked case by case. -/
theorem typeFlagsOf_rec {P : Bool → Bool → Bool → Bool → Word → Prop}
    (h : ∀ a b c d, P a b c d (bit a * 0x01 + bit b * 0x02 + bit c * 0x04 + bit d * 0x08 + bit c * 0x10)) (t : Word) :
    P (isCritical t) (isPublic t) (isReservedBitValid t) (isSafeToCopy t) (typeFlagsOf t) :=
  h _ _ _ _

theorem typeFlagsOf_toNat (t : Word) : (typeFlagsOf t).toNat =
    (isCritical t).toNat * 0x01 + (isPublic t).toNat * 0x02 + (isReservedBitValid t).toNat * 0x04 +
      (isSafeToCopy t).toNat * 0x08 + (isValidType t).toNat * 0x10 :=
  typeFlagsOf_rec (P := fun a b c d w =>
    w.toNat = a.toNat * 0x01 + b.toNat * 0x02 + c.toNat * 0x04 + d.toNat * 0x08 + c.toNat * 0x10) (by decide) t

/-- Bits 0 to 3 are R131 to R134 in order, and bit 4 is bit 2 (R133). -/
theorem typeFlagsOf_getLsbD (t : Word) :
    (typeFlagsOf t).getLsbD 0 = isCritical t ∧ (typeFlagsOf t).getLsbD 1 = isPublic t ∧
    (typeFlagsOf t).getLsbD 2 = isReservedBitValid t ∧ (typeFlagsOf t).getLsbD 3 = isSafeToCopy t ∧
    (typeFlagsOf t).getLsbD 4 = isReservedBitValid t :=
  typeFlagsOf_rec (P := fun a b c d w =>
    w.getLsbD 0 = a ∧ w.getLsbD 1 = b ∧ w.getLsbD 2 = c ∧ w.getLsbD 3 = d ∧ w.getLsbD 4 = c) (by decide) t

/-- The reserved bits of TYPE_FLAGS are 0 (R37). -/
theorem typeFlagsOf_reserved (t : Word) {k : Nat} (hk : 5 ≤ k) : (typeFlagsOf t).getLsbD k = false := by
  have small : (typeFlagsOf t).toNat < 2 ^ 5 := by
    rw [typeFlagsOf_toNat]
    have bound := Bool.toNat_le
    have h0 := bound (isCritical t)
    have h1 := bound (isPublic t)
    have h2 := bound (isReservedBitValid t)
    have h3 := bound (isSafeToCopy t)
    have h4 := bound (isValidType t)
    omega
  exact Nat.testBit_lt_two_pow (small.trans_le (Nat.pow_le_pow_right (by decide) hk))

theorem isUpper_iff (b : Byte) : isUpper b = true ↔ 0x41 ≤ b.toNat ∧ b.toNat ≤ 0x5A := by
  simp only [isUpper, Bool.and_eq_true, decide_eq_true_eq]

theorem isLower_iff (b : Byte) : isLower b = true ↔ 0x61 ≤ b.toNat ∧ b.toNat ≤ 0x7A := by
  simp only [isLower, Bool.and_eq_true, decide_eq_true_eq]

/-! ## Every combination occurs -/

/-- "A" or "a": the letter whose case a predicate of R131 to R133 reads as `p`. -/
def letterOfCase (p : Bool) : Byte := if p then 0x41 else 0x61

/-- A type of four letters with the given predicates; R134 asks for a small fourth letter. -/
def typeOfCases (a b c d : Bool) : Word := be32 (letterOfCase a) (letterOfCase b) (letterOfCase c) (letterOfCase !d)

theorem typeOfCases_spec : ∀ a b c d : Bool, typeOk (typeOfCases a b c d) = true ∧
    isCritical (typeOfCases a b c d) = a ∧ isPublic (typeOfCases a b c d) = b ∧
    isReservedBitValid (typeOfCases a b c d) = c ∧ isSafeToCopy (typeOfCases a b c d) = d := by
  decide

/-! ## The obligation -/

/-- Settles O32: each bit is its predicate, and a type may be spelled in any of the sixteen cases. -/
theorem typeFlagsBits : Obligations.TypeFlagsBits := by
  refine ⟨fun a b c d => ⟨typeOfCases a b c d, ?combination⟩, fun t => ?bits⟩
  case combination =>
    obtain ⟨hok, ha, hb, hc, hd⟩ := typeOfCases_spec a b c d
    obtain ⟨h0, h1, h2, h3, -⟩ := typeFlagsOf_getLsbD (typeOfCases a b c d)
    exact ⟨hok, h0.trans ha, h1.trans hb, h2.trans hc, h3.trans hd⟩
  case bits =>
    obtain ⟨h0, h1, h2, h3, h4⟩ := typeFlagsOf_getLsbD t
    have hmask : typeFlagsOf t &&& 0x10 = (typeFlagsOf t &&& 0x04) * 4 :=
      typeFlagsOf_rec (P := fun _ _ _ _ w => w &&& 0x10 = (w &&& 0x04) * 4) (by decide) t
    rw [h0, h1, h2, h3, h4]
    exact ⟨typeFlagsOf_toNat t, hmask, isUpper_iff _, isUpper_iff _, isUpper_iff _, isLower_iff _, rfl,
      fun k => typeFlagsOf_reserved t⟩

end Sys2Proof.Machine
end

section
/-! PROOFS. What every command has in common: how it can end, what it may write (10_state.md R46), and what it does not look
at (44_control.md R215). -/

namespace Sys2Proof.Machine

/-! ## How a command can end -/

/-- What a command that succeeds has written when it comes to `finish`, over the state `s` it ran on: R46 row by row. -/
inductive Written (s : State) : Instr → State → Prop where
  | nop : Written s .nop s
  | crc {i : Instr} (hi : i ∈ [.crcInit, .crcUpdate, .crcUpdateByte, .crcCompute]) (v : Word) :
      Written s i (s.setCrcState v)
  | typeParse : Written s .typeParse (s.setTypeFlags (typeFlagsOf s.ty))
  | typeParseText (t : Word) : Written s .typeParseText ((s.setType t).setTypeFlags (typeFlagsOf t))
  | chunkParse (e : Descriptor) (n : Word) : Written s .chunkParse ((s.setResults { s.res with
      len := e.len, type := e.type, crc := e.crc, dataAddr := e.addr, outLen := n }).setTypeFlags (typeFlagsOf e.type))
  | chunkBuild (hc : chunkBuildCheck s = none) (bs : List Byte) (hl : bs.length = 12 + s.len) (e : Descriptor) (n : Word) :
      Written s .chunkBuild (((s.setBuf (s.buf.writeRange s.dst bs)).setResults { s.res with
        len := e.len, type := e.type, crc := e.crc, dataAddr := e.addr, outLen := n }).setTypeFlags (typeFlagsOf e.type))
  | contParse (cs : List Chunk) (hok : ∀ c ∈ cs, c.ok) (hn : cs.length ≤ s.params.maxChunks.toNat)
      (hr : s.InRange s.src (8 + (framesOf cs).length)) (n : Word) :
      Written s .contParse ((s.setTable true (tableOf (s.src + 8) cs)).setResults { s.res with outLen := n })
  | contSerialize (hc : contSerializeCheck s = none) (bs : List Byte) (hl : bs.length = imageLen s.ct) (n : Word) :
      Written s .contSerialize ((s.setBuf (s.buf.writeRange s.dst bs)).setResults { s.res with outLen := n })
  | contAppend (hv : s.status.cvalid = true) (e : Descriptor) (ht : typeOk e.type = true)
      (hr : s.InRange e.addr.toNat e.len.toNat) (hn : s.ct.length ≠ s.params.maxChunks.toNat) (j : Nat) :
      Written s .contAppend ((s.setTable true (s.ct ++ [e])).report e j)
  | contFindNone : Written s .contFind s
  | contFind (e : Descriptor) (j : Nat) : Written s .contFind ((s.setFound true).report e j)
  | contRemove (hv : s.status.cvalid = true) (e : Descriptor) (x y : List Descriptor) (hl : s.ct = x ++ e :: y) (j : Nat) :
      Written s .contRemove ((s.setTable true (x ++ y)).report e j)
  | contEntry (e : Descriptor) (j : Nat) : Written s .contEntry (s.report e j)

/-- The state a command that raises `e` leaves: CONT_PARSE drops the container (R185), the others keep it (R226). -/
def State.failedBy (s : State) (i : Instr) (e : ErrorRecord) : State :=
  if i = .contParse then s.parseFailed e else s.raise e

/-- A byte that a command may read is unwritten: of the range (SRC, LEN) inside the buffer, or of a region of the table. -/
def State.ReadsUnwritten (s : State) : Prop :=
  (s.InRange s.src s.len ∧ s.Unwritten s.src s.len) ∨ ∃ e ∈ s.ct, s.Unwritten e.addr.toNat e.len.toNat

/-- The three ways in which a command ends. -/
inductive Ends (s : State) (i : Instr) : Result → Prop where
  | error {e : ErrorRecord} (he : e.real) : Ends s i (.next (s.failedBy i e))
  | unwritten (hu : s.ReadsUnwritten) : Ends s i (.fault .commandReadUnwritten)
  | success {t : State} (hw : Written s i t) : Ends s i (.next t.finish)

theorem exec_ends (i : Instr) (s : State) : Ends s i (exec i s) := by
  generalize h : exec i s = r
  cases i <;> simp only [exec] at h
  case nop => cases execNop_cases h; exact .success .nop
  case crcInit => cases execCrcInit_cases h; exact .success (.crc (by decide) _)
  case crcUpdate =>
    rcases execCrcUpdate_cases h with ⟨e, he, rfl⟩ | ⟨rfl, hu⟩ | ⟨v, rfl⟩
    exacts [.error he, .unwritten (.inl hu), .success (.crc (by decide) v)]
  case crcUpdateByte =>
    obtain ⟨v, rfl⟩ := execCrcUpdateByte_cases h
    exact .success (.crc (by decide) v)
  case crcCompute =>
    rcases execCrcCompute_cases h with ⟨e, he, rfl⟩ | ⟨rfl, hu⟩ | ⟨v, rfl⟩
    exacts [.error he, .unwritten (.inl hu), .success (.crc (by decide) v)]
  case typeParse =>
    rcases execTypeParse_cases h with ⟨e, he, rfl⟩ | ⟨-, rfl⟩
    exacts [.error he, .success .typeParse]
  case typeParseText =>
    rcases execTypeParseText_cases h with ⟨e, he, rfl⟩ | ⟨rfl, hu⟩ | ⟨t, -, rfl⟩
    exacts [.error he, .unwritten (.inl hu), .success (.typeParseText t)]
  case chunkParse =>
    rcases execChunkParse_cases h with ⟨e, he, rfl⟩ | ⟨rfl, hu⟩ | ⟨b, d, -, -, -, -, rfl⟩
    exacts [.error he, .unwritten (.inl hu), .success (.chunkParse d _)]
  case chunkBuild =>
    rcases execChunkBuild_cases h with ⟨e, he, rfl⟩ | ⟨rfl, hu⟩ | ⟨d, hc, hl, -, rfl⟩
    exacts [.error he, .unwritten (.inl hu), .success (.chunkBuild hc _ (by rw [frameBytes_length, hl]) ⟨_, _, _, _⟩ _)]
  case contParse =>
    rcases execContParse_cases h with ⟨e, he, rfl⟩ | ⟨rfl, hu⟩ | ⟨cs, hok, hn, hr, hl, -, rfl⟩
    exacts [.error he, .unwritten (.inl hu), .success (.contParse cs hok hn (hl ▸ hr) _)]
  case contSerialize =>
    rcases execContSerialize_cases h with ⟨e, he, rfl⟩ | ⟨rfl, hu⟩ | ⟨frames, hc, hi, rfl⟩
    · exact .error he
    · exact .unwritten (.inr hu)
    · refine .success (.contSerialize hc _ ?_ _)
      rw [List.length_append, framesImage_length hi]
      rfl
  case contAppend =>
    rcases execContAppend_cases h with ⟨e, he, rfl⟩ | ⟨rfl, hu⟩ | ⟨e, hv, ht, hr, hn, hty, haddr, hlen, rfl⟩
    · exact .error he
    · exact .unwritten (.inl hu)
    · exact .success (.contAppend hv e (hty ▸ ht) (by rw [haddr, hlen]; exact hr) hn _)
  case contFind =>
    rcases execContFind_cases h with ⟨e, he, rfl⟩ | ⟨-, rfl⟩ | ⟨e, j, -, -, rfl⟩
    exacts [.error he, .success .contFindNone, .success (.contFind e j)]
  case contRemove =>
    rcases execContRemove_cases h with ⟨e, he, rfl⟩ | ⟨e, x, y, hv, hl, rfl⟩
    exacts [.error he, .success (.contRemove hv e x y hl _)]
  case contEntry =>
    rcases execContEntry_cases h with ⟨e, he, rfl⟩ | ⟨e, -, -, rfl⟩
    exacts [.error he, .success (.contEntry e _)]

/-- A command that answers raised an error, or wrote what R46 allows it and finished. -/
theorem exec_next {i : Instr} {s t : State} (h : exec i s = .next t) :
    (∃ e : ErrorRecord, e.real ∧ t = s.failedBy i e) ∨ ∃ u, Written s i u ∧ t = u.finish := by
  have hends := exec_ends i s
  rw [h] at hends
  cases hends with
  | error he => exact .inl ⟨_, he, rfl⟩
  | success hw => exact .inr ⟨_, hw, rfl⟩

/-- A command that succeeds writes no error register. -/
theorem Written.err {s t : State} {i : Instr} (h : Written s i t) : t.err = s.err := by
  cases h <;> rfl

theorem State.failedBy_contParse (s : State) (e : ErrorRecord) : s.failedBy .contParse e = s.parseFailed e := rfl

theorem State.failedBy_of_ne (s : State) {i : Instr} (e : ErrorRecord) (hi : i ≠ .contParse) :
    s.failedBy i e = s.raise e := if_neg hi

@[simp] theorem State.failedBy_err (s : State) (i : Instr) (e : ErrorRecord) : (s.failedBy i e).err = e := by
  rw [State.failedBy]
  split <;> rfl

/-! ## What a command does not look at -/

/-- The replacement of everything outside the block and of what only times a command, of which R215 speaks. -/
def State.withOutside (s : State) (d n : Nat) (ins : List HostOp) (reps : List Reply) (c w : Word) : State :=
  { s with delay := d, draws := n, inputs := ins, replies := reps, crcInternal := c, cmdWord := w }

/-- A change of the next state of an outcome. -/
def onNext (g : State → State) : Result → Result
  | .next t => .next (g t)
  | .fault f => .fault f
  | .refused r => .refused r

section Outside

variable {g : State → State}

theorem onNext_ite {p : Prop} [Decidable p] {x y x' y' : Result} (hx : x = onNext g x') (hy : y = onNext g y') :
    (if p then x else y) = onNext g (if p then x' else y') := by
  split <;> assumption

/-- MemRead gives the same bytes where the buffer is the same. -/
theorem onNext_withBytes {s s' : State} (hs : s.buf = s'.buf) {a n : Nat} {k k' : List Byte → Result}
    (hk : ∀ bs, k bs = onNext g (k' bs)) : s.withBytes a n k = onNext g (s'.withBytes a n k') := by
  unfold State.withBytes
  rw [hs]
  cases s'.buf.readRange a n with
  | none => rfl
  | some bs => exact hk bs

end Outside

theorem exec_withOutside (i : Instr) (s : State) (d n : Nat) (ins : List HostOp) (reps : List Reply) (c w : Word) :
    exec i (s.withOutside d n ins reps c w) = onNext (·.withOutside d n ins reps c w) (exec i s) := by
  cases i
  case nop => rfl
  case crcInit => rfl
  case crcUpdate => exact onNext_ite rfl (onNext_withBytes rfl fun _ => rfl)
  case crcUpdateByte => rfl
  case crcCompute => exact onNext_ite rfl (onNext_withBytes rfl fun _ => rfl)
  case typeParse => exact onNext_ite rfl rfl
  case typeParseText => exact onNext_ite rfl (onNext_ite rfl (onNext_withBytes rfl fun _ => onNext_ite rfl rfl))
  case chunkParse =>
    refine onNext_ite rfl (onNext_withBytes rfl fun b => ?_)
    show (match parseFrame s.src b with | .error e => _ | .ok e => _) = _
    cases parseFrame s.src b <;> rfl
  case chunkBuild =>
    show (match chunkBuildCheck s with | some e => _ | none => _) = onNext _ (execChunkBuild s)
    unfold execChunkBuild
    cases chunkBuildCheck s with
    | some e => rfl
    | none => exact onNext_withBytes rfl fun _ => rfl
  case contParse =>
    refine onNext_ite rfl (onNext_withBytes rfl fun b => ?_)
    show (match parseContainer s.params.maxChunks.toNat s.src b with | .error e => _ | .ok e => _) = _
    cases parseContainer s.params.maxChunks.toNat s.src b <;> rfl
  case contSerialize =>
    show (match contSerializeCheck s with | some e => _ | none => _) = onNext _ (execContSerialize s)
    unfold execContSerialize
    cases contSerializeCheck s with
    | some e => rfl
    | none =>
      show (match framesImage s.buf s.ct with | none => _ | some frames => _) = _
      cases framesImage s.buf s.ct <;> rfl
  case contAppend =>
    exact onNext_ite (onNext_ite rfl (onNext_ite rfl (onNext_ite rfl (onNext_withBytes rfl fun _ => rfl)))) rfl
  case contFind =>
    refine onNext_ite ?_ rfl
    show (match findFirst s.ty 0 s.ct with | none => _ | some (j, e) => _) = _
    rcases findFirst s.ty 0 s.ct with _ | ⟨j, e⟩ <;> rfl
  case contRemove =>
    refine onNext_ite ?_ rfl
    show (match findFirst s.ty 0 s.ct with | none => _ | some (j, e) => _) = _
    rcases findFirst s.ty 0 s.ct with _ | ⟨j, e⟩ <;> rfl
  case contEntry =>
    refine onNext_ite ?_ rfl
    show (match s.ct[s.op.toNat]? with | none => _ | some e => _) = _
    cases s.ct[s.op.toNat]? <;> rfl

/-! ## The obligations -/

/-- Settles O10: `exec` commutes with the replacement. -/
theorem commandsIgnoreTimeAndTheOutside : Obligations.CommandsIgnoreTimeAndTheOutside := by
  intro i s d n ins reps c w
  refine (exec_withOutside i s d n ins reps c w).trans ?_
  cases exec i s <;> rfl

/-- Settles O9: a command that does not answer read an unwritten byte, and the ranges commands read lie in the buffer. -/
theorem everyCommandCompletesOrReadsUnwritten : Obligations.EveryCommandCompletesOrReadsUnwritten := by
  intro i s hinv
  have inside : ∀ a n, s.InRange a n → s.Unwritten a n → ∃ x, x < s.params.bufBytes.toNat ∧ s.buf.read x = none := by
    rintro a n hr ⟨k, hk, hread⟩
    exact ⟨a + k, by unfold State.InRange at hr; omega, hread⟩
  rcases hexec : exec i s with t | f | r
  · exact .inl ⟨t, rfl, exec_busy hexec⟩
  all_goals
    have hends := exec_ends i s
    rw [hexec] at hends
    cases hends
  case fault.unwritten hu =>
    rcases hu with ⟨hr, hu⟩ | ⟨e, he, hu⟩
    · exact .inr ⟨rfl, inside _ _ hr hu⟩
    · exact .inr ⟨rfl, inside _ _ (hinv.regionsInRange e he) hu⟩

/-- Settles O11: a command that began with the error registers clear and left them set has raised an error. -/
theorem failedCommandChangesOnlyErrorState : Obligations.FailedCommandChangesOnlyErrorState := by
  intro i s t hclear hexec hcode
  rcases exec_next hexec with ⟨e, -, rfl⟩ | ⟨u, hw, rfl⟩
  · by_cases hi : i = .contParse
    · subst hi; rfl
    · rw [if_neg hi, if_neg hi, s.failedBy_of_ne e hi]; rfl
  · exact absurd ((congrArg ErrorRecord.code hw.err).trans hclear) hcode

/-- Settles O50: the two cases of R226 read off for the container commands. -/
theorem containerCommandsAreAllOrNothing : Obligations.ContainerCommandsAreAllOrNothing := by
  intro i s t hclear hexec hcode
  have ht := failedCommandChangesOnlyErrorState i s t hclear hexec hcode
  constructor
  · intro hmem
    have hi : i ≠ .contParse := by rintro rfl; simp at hmem
    rw [if_neg hi, if_neg hi] at ht
    rw [ht]
    exact ⟨rfl, rfl⟩
  · rintro rfl
    rw [ht]
    exact ⟨rfl, rfl⟩

/-- Settles O12: an error writes the error state and perhaps the container, a success writes its row of R46. -/
theorem commandsWriteOnlyTheirRegisters : Obligations.CommandsWriteOnlyTheirRegisters := by
  intro i s t hexec
  rcases exec_next hexec with ⟨e, -, rfl⟩ | ⟨u, hw, rfl⟩
  · by_cases hi : i = .contParse
    · subst hi; simp [State.failedBy_contParse, State.parseFailed]
    · simp [s.failedBy_of_ne e hi]
  · cases hw with
    | crc hi v =>
      simp only [List.mem_cons, List.not_mem_nil, or_false] at hi
      rcases hi with rfl | rfl | rfl | rfl <;> simp
    | contAppend hv => simp [hv]
    | contRemove hv => simp [hv]
    | _ => simp

end Sys2Proof.Machine
end

section
/-! PROOFS. The invariant of the block: each operation on the state keeps it, and a step is made of these operations. -/

namespace Sys2Proof.Machine

/-! ## The operations keep the invariant -/

section Operations

variable {s : State} (h : s.Inv)
include h

theorem State.Inv.setDelay (d : Nat) : ({ s with delay := d } : State).Inv := { h with }

theorem State.Inv.setInputs (ins : List HostOp) : ({ s with inputs := ins } : State).Inv := { h with }

theorem State.Inv.reply (r : Reply) : (s.reply r).Inv := { h with }

theorem State.Inv.settle : s.settle.Inv := { h with }

theorem State.Inv.setCrcState (v : Word) : (s.setCrcState v).Inv := { h with }

theorem State.Inv.setResults (r : Results) : (s.setResults r).Inv := { h with }

theorem State.Inv.setTypeFlags (t : Word) : (s.setTypeFlags (typeFlagsOf t)).Inv :=
  { h with
    flagsReserved := fun _ => typeFlagsOf_reserved t
    flagsValid := by
      obtain ⟨-, -, h2, -, h4⟩ := typeFlagsOf_getLsbD t
      exact h4.trans h2.symm }

theorem State.Inv.report (e : Descriptor) (j : Nat) : (s.report e j).Inv := (h.setResults _).setTypeFlags e.type

theorem State.Inv.setBuf {m : Memory} (hm : m.wf) (hin : ∀ c ∈ m, c.1 < s.params.bufBytes.toNat) : (s.setBuf m).Inv :=
  { h with bufCanonical := hm, bufInside := hin }

/-- A write inside the buffer keeps what the invariant says of it. -/
theorem State.Inv.writeRange {a : Nat} {bs : List Byte} (hr : s.InRange a bs.length) :
    (s.setBuf (s.buf.writeRange a bs)).Inv := by
  refine h.setBuf (Memory.wf_writeRange h.bufCanonical a bs) fun c hc => ?_
  rcases Memory.mem_writeRange hc with hnew | hold
  · exact hnew.2.trans_le hr
  · exact h.bufInside c hold

theorem State.Inv.setTable {l : List Descriptor} (hn : l.length ≤ s.params.maxChunks.toNat)
    (ht : ∀ e ∈ l, typeOk e.type = true) (hr : ∀ e ∈ l, s.InRange e.addr.toNat e.len.toNat) : (s.setTable true l).Inv :=
  { h with
    tableFits := hn
    typesAreLetters := ht
    regionsInRange := hr
    noContainer := fun hv => Bool.noConfusion hv }

/-- An idle block's operand registers are free to change. -/
theorem State.Inv.setOpnd (hb : s.status.busy = false) (o : Operands) : ({ s with opnd := o } : State).Inv :=
  { h with busyStarted := fun hb' => absurd (hb.symm.trans hb') Bool.false_ne_true }

/-- FOUND is set of a command that is over and raised no error (R24). -/
theorem State.Inv.setFound (hb : s.status.busy = false) (herr : s.status.err = false) : (s.setFound true).Inv :=
  { h with
    foundNoErr := fun _ => herr
    busyStarted := fun hb' => absurd (hb.symm.trans hb') Bool.false_ne_true }

theorem State.Inv.commandStart (w : Word) (d : Nat) : (s.commandStart w d).Inv :=
  { h with
    errFlag := by simp [ErrorRecord.clear]
    errClear := fun _ => rfl
    neverNotUtf8 := ErrCode.noConfusion
    foundNoErr := fun _ => rfl
    busyStarted := fun _ => ⟨rfl, rfl, rfl⟩ }

theorem State.Inv.finish : s.finish.Inv := { h with busyStarted := fun hb => Bool.noConfusion hb }

/-- An error is raised while FOUND = 0, as command start left it. -/
theorem State.Inv.raise {e : ErrorRecord} (hf : s.status.found = false) (he : e.real) : (s.raise e).Inv :=
  { h with
    errFlag := ⟨fun _ => he.1, fun _ => rfl⟩
    errClear := fun hc => absurd hc he.1
    neverNotUtf8 := he.2
    foundNoErr := fun hf' => absurd (hf.symm.trans hf') Bool.false_ne_true
    busyStarted := fun hb => Bool.noConfusion hb }

/-- Dropping the container is dropping all that the invariant says of it. -/
theorem State.Inv.dropTable : (s.setTable false []).Inv :=
  { h with
    tableFits := Nat.zero_le _
    noContainer := fun _ => rfl
    typesAreLetters := List.forall_mem_nil _
    regionsInRange := List.forall_mem_nil _ }

theorem State.Inv.failedBy (i : Instr) {e : ErrorRecord} (hf : s.status.found = false) (he : e.real) :
    (s.failedBy i e).Inv := by
  rw [State.failedBy]
  split
  · exact h.dropTable.raise hf he
  · exact h.raise hf he

end Operations

/-- Over a buffer that meets the invariant every register at its reset value meets it (R47). -/
theorem State.inv_resetRegs {s : State} {m : Memory} (hp : s.params.wf = true) (hm : m.wf)
    (hin : ∀ c ∈ m, c.1 < s.params.bufBytes.toNat) : (s.resetRegs m).Inv where
  params := hp
  bufCanonical := hm
  bufInside := hin
  tableFits := Nat.zero_le _
  noContainer _ := rfl
  typesAreLetters := List.forall_mem_nil _
  regionsInRange := List.forall_mem_nil _
  errFlag := by simp [State.resetRegs, State.resetOf, ErrorRecord.clear]
  errClear _ := rfl
  neverNotUtf8 := ErrCode.noConfusion
  flagsReserved _ _ := BitVec.getLsbD_zero
  flagsValid := (BitVec.getLsbD_zero).trans BitVec.getLsbD_zero.symm
  foundNoErr _ := rfl
  busyStarted hb := Bool.noConfusion hb

theorem State.inv_hardReset {s : State} (hp : s.params.wf = true) : s.hardReset.Inv :=
  State.inv_resetRegs hp Memory.wf_nil (List.forall_mem_nil _)

theorem State.Inv.softReset {s : State} (h : s.Inv) : s.softReset.Inv :=
  State.inv_resetRegs h.params (State.abortedBuf_wf h.bufCanonical) fun c hc => h.bufInside c (State.mem_abortedBuf hc)

/-! ## Commands keep the invariant -/

/-- A region of a table laid out in the buffer lies in it (R172). -/
theorem tableOf_letters_inside {pos : Nat} {cs : List Chunk} (hok : ∀ c ∈ cs, c.ok) {bound : Nat}
    (hb : pos + (framesOf cs).length ≤ bound) (hlt : bound < 2 ^ 32) :
    ∀ e ∈ tableOf pos cs, typeOk e.type = true ∧ e.addr.toNat + e.len.toNat ≤ bound := by
  induction cs generalizing pos with
  | nil => simp
  | cons c cs ih =>
    obtain ⟨hc, hcs⟩ := List.forall_mem_cons.mp hok
    rw [framesOf_cons, List.length_append, Chunk.frame_length] at hb
    rw [tableOf_cons, List.forall_mem_cons]
    refine ⟨⟨hc.1, ?_⟩, ih hcs (by omega)⟩
    have haddr : (BitVec.ofNat 32 (pos + 8)).toNat = pos + 8 := Nat.mod_eq_of_lt (by omega)
    show (BitVec.ofNat 32 (pos + 8)).toNat + (BitVec.ofNat 32 c.data.length).toNat ≤ bound
    rw [haddr, Chunk.len_toNat hc]
    omega

/-- What a command has written, seen once BUSY is cleared. -/
theorem State.Inv.written {s t : State} {i : Instr} (h : s.Inv) (hb : s.status.busy = true) (hw : Written s i t) :
    t.finish.Inv := by
  have hf := h.finish
  cases hw with
  | nop => exact hf
  | crc _ v => exact hf.setCrcState v
  | typeParse => exact hf.setTypeFlags _
  | typeParseText t => exact (hf.setOpnd rfl _).setTypeFlags t
  | chunkParse e n => exact (hf.setResults _).setTypeFlags e.type
  | chunkBuild hc bs hl e n =>
    obtain ⟨-, -, hr, -⟩ := chunkBuildCheck_none hc
    exact ((hf.writeRange (hl.symm ▸ hr)).setResults _).setTypeFlags e.type
  | contParse cs hok hn hr n =>
    have hmem := tableOf_letters_inside hok (pos := s.src + 8) (by unfold State.InRange at hr; omega) s.params.bufBytes.isLt
    exact (hf.setTable (by simpa using hn) (fun e he => (hmem e he).1) fun e he => (hmem e he).2).setResults _
  | contSerialize hc bs hl n =>
    obtain ⟨-, hr, -⟩ := contSerializeCheck_none hc
    exact (hf.writeRange (hl.symm ▸ hr)).setResults _
  | contAppend hv e ht hr hn j =>
    have hfits : s.ct.length < s.params.maxChunks.toNat := lt_of_le_of_ne h.tableFits hn
    refine (hf.setTable (l := s.ct ++ [e]) ?_ ?_ ?_).report e j
    · simpa using hfits
    · exact List.forall_mem_append.mpr ⟨h.typesAreLetters, by simpa using ht⟩
    · exact List.forall_mem_append.mpr ⟨h.regionsInRange, by simpa using hr⟩
  | contFindNone => exact hf
  | contFind e j =>
    obtain ⟨herr, -, -⟩ := h.busyStarted hb
    exact (hf.setFound rfl herr).report e j
  | contRemove hv e x y hl j =>
    have hsub : (x ++ y).Sublist s.ct := hl ▸ (List.Sublist.refl x).append (List.sublist_cons_self e y)
    exact (hf.setTable (hsub.length_le.trans h.tableFits) (fun d hd => h.typesAreLetters d (hsub.subset hd))
      fun d hd => h.regionsInRange d (hsub.subset hd)).report e j
  | contEntry e j => exact hf.report e j

theorem State.Inv.exec {s t : State} {i : Instr} (h : s.Inv) (hb : s.status.busy = true) (hexec : exec i s = .next t) :
    t.Inv := by
  obtain ⟨-, hfound, -⟩ := h.busyStarted hb
  rcases exec_next hexec with ⟨e, he, rfl⟩ | ⟨u, hw, rfl⟩
  · exact h.failedBy i hfound he
  · exact h.written hb hw

theorem State.Inv.complete {s t : State} (h : s.Inv) (hb : s.status.busy = true) (hc : complete s = .next t) : t.Inv := by
  rcases hd : decode s.cmdWord with e | i
  · obtain ⟨-, hfound, -⟩ := h.busyStarted hb
    rw [complete_error hd] at hc
    cases hc
    exact (h.raise hfound (real_errorAt (by decide) (by decide))).settle
  · rw [complete_ok hd] at hc
    rcases hexec : Machine.exec i s with u | f | r <;> rw [hexec] at hc <;> cases hc
    exact (h.exec hb hexec).settle

/-! ## The host's accesses keep the invariant -/

/-- A register write faults, is ignored, or writes its register, which while BUSY = 1 can be CTRL only (R268). -/
theorem hostWrite_cases (s : State) (width off : Nat) (v : Word) :
    (∃ f, hostWrite s width off v = .fault f) ∨ hostWrite s width off v = .next s ∨
    ∃ r, (s.status.busy = true → r = .ctrl) ∧ hostWrite s width off v = .next (s.writeReg r v) := by
  unfold hostWrite
  split
  · exact .inl ⟨_, rfl⟩
  · split
    · split
      · exact .inl ⟨_, rfl⟩
      · exact .inr (.inl rfl)
    · split
      · exact .inl ⟨_, rfl⟩
      next r hr hb => exact .inr (.inr ⟨r, by simpa using hb, rfl⟩)

theorem State.Inv.writeReg {s : State} (h : s.Inv) (r : Reg) (v : Word) (hb : s.status.busy = true → r = .ctrl) :
    (s.writeReg r v).Inv := by
  have idle : r ≠ .ctrl → s.status.busy = false := fun hr => by simpa using mt hb hr
  by_cases hro : r ∈ [.ctrl, .cmd, .srcAddr, .srcLen, .dstAddr, .type, .opa]
  · simp only [List.mem_cons, List.not_mem_nil, or_false] at hro
    rcases hro with rfl | rfl | rfl | rfl | rfl | rfl | rfl
    · rw [State.writeReg]
      split
      exacts [h.softReset, h]
    · exact h.commandStart v _
    all_goals exact h.setOpnd (idle nofun) _
  · rw [s.writeReg_readOnly v hro]
    exact h

theorem State.Inv.hostAccess {s t : State} (h : s.Inv) (op : HostOp) (ha : hostAccess s op = .next t) : t.Inv := by
  cases op with
  | rd width off =>
    change hostRead s width off = .next t at ha
    rcases hostRead_cases s width off with ⟨-, hf⟩ | ⟨-, -, hf⟩ | ⟨v, hn⟩
    · cases hf.symm.trans ha
    · cases hf.symm.trans ha
    · cases hn.symm.trans ha
      exact h.reply _
  | wr width off v =>
    change hostWrite s width off v = .next t at ha
    rcases hostWrite_cases s width off v with ⟨f, hf⟩ | hn | ⟨r, hr, hn⟩
    · cases hf.symm.trans ha
    · cases hn.symm.trans ha
      exact h
    · cases hn.symm.trans ha
      exact h.writeReg r v hr
  | rb a =>
    change bufRead s a = .next t at ha
    rcases bufRead_cases s a with ⟨f, hf⟩ | ⟨b, -, hn⟩
    · cases hf.symm.trans ha
    · cases hn.symm.trans ha
      exact h.reply _
  | wb a b =>
    change bufWrite s a b = .next t at ha
    rcases bufWrite_cases s a b with ⟨f, hf⟩ | ⟨-, hlt, hn⟩
    · cases hf.symm.trans ha
    · cases hn.symm.trans ha
      exact h.writeRange (bs := [b]) hlt
  | wait =>
    cases ha
    exact (h.reply _).setInputs _
  | hardReset =>
    cases ha
    exact State.inv_hardReset h.params

theorem State.Inv.hostTurn {s t : State} (h : s.Inv) (ht : hostTurn s = .next t) : t.Inv := by
  rcases hins : s.inputs with _ | ⟨op, rest⟩
  · rw [hostTurn_nil hins] at ht
    cases ht
    exact h
  · rw [hostTurn_cons hins] at ht
    exact (h.setInputs rest).hostAccess op ht

/-! ## The obligations -/

/-- Settles O53: a step completes the running command or is the host's turn. -/
theorem everyStepKeepsTheInvariant : Obligations.EveryStepKeepsTheInvariant := by
  intro s t h hstep
  rcases hb : s.status.busy
  · rw [step_idle hb] at hstep
    exact h.hostTurn hstep
  · rcases hd : s.delay with _ | d
    · rw [step_complete hb hd] at hstep
      exact h.complete hb hstep
    · rw [step_wait hb hd] at hstep
      exact (h.setDelay d).hostTurn hstep

/-- Settles O54: the reset state is one that hardware reset does not change. -/
theorem resetStateHasTheInvariant : Obligations.ResetStateHasTheInvariant := by
  have resetOf : ∀ p : Params, p.wf = true → (State.resetOf p).Inv := fun p hp =>
    State.hardReset_resetOf p ▸ State.inv_hardReset hp
  exact ⟨resetOf _ (by decide), resetOf⟩

end Sys2Proof.Machine
end

section
/-! PROOFS. The command words (30_encoding.md R80 to R83), the command protocol (44_control.md R210 to R215) and the error
numbers (60_exceptions.md R220, R222). -/

namespace Sys2Proof.Machine

/-! ## Illegal words -/

/-- A word that is no command's encoding does not decode. -/
theorem decode_error_of_ne_encode {w : Word} (h : ∀ i, w ≠ encode i) : ∃ e, decode w = .error e := by
  rcases hd : decode w with e | i
  · exact ⟨e, rfl⟩
  · exact absurd (decode_eq_ok_iff.mp hd) (h i)

/-- The ranges of opcodes that R83 reserves. -/
def ReservedOpcode (n : Nat) : Prop :=
  (0x05 ≤ n ∧ n ≤ 0x0F) ∨ (0x12 ≤ n ∧ n ≤ 0x1F) ∨ (0x22 ≤ n ∧ n ≤ 0x2F) ∨ 0x36 ≤ n

theorem not_reservedOpcode_opcode (i : Instr) : ¬ ReservedOpcode i.opcode.toNat := by
  unfold ReservedOpcode
  cases i <;> decide

theorem decode_reserved {w : Word} (h : w.extractLsb' 8 24 ≠ 0 ∨ ReservedOpcode (w.extractLsb' 0 8).toNat) :
    ∃ e, decode w = .error e := by
  refine decode_error_of_ne_encode fun i hw => ?_
  obtain ⟨hrsv, hop⟩ := word_eq_append_iff.mp hw
  rw [hrsv, hop] at h
  exact h.elim (· rfl) (not_reservedOpcode_opcode i)

/-! ## Single steps of the protocol -/

theorem hostAccess_wr (s : State) (width off : Nat) (v : Word) :
    hostAccess s (.wr width off v) = hostWrite s width off v := rfl

/-- A write of CMD by an idle block's host is a command start (R211). -/
theorem step_cmd_write {s : State} {w : Word} {rest : List HostOp} (hb : s.status.busy = false)
    (hins : s.inputs = .wr 32 0x0C w :: rest) :
    step s = .next (({ s with inputs := rest } : State).commandStart w (Config.latency s.draws)) := by
  rw [step_idle hb, hostTurn_cons hins, hostAccess_wr]
  exact hostWrite_register (by exact hb) .cmd w

theorem step_complete_ok {s : State} {i : Instr} (hb : s.status.busy = true) (hd : s.delay = 0)
    (hi : decode s.cmdWord = .ok i) : step s = settled (exec i s) := by
  rw [step_complete hb hd, complete_ok hi]

theorem step_complete_error {s : State} {e : DecodeError} (hb : s.status.busy = true) (hd : s.delay = 0)
    (he : decode s.cmdWord = .error e) : step s = .next (s.raise (errorAt .illegalCommand .none 0x0C 0)).settle := by
  rw [step_complete hb hd, complete_error he]

/-- A turn of WAIT while BUSY = 1 reads STATUS and stays (R213). -/
theorem step_wait_busy {s : State} {d : Nat} {rest : List HostOp} (hb : s.status.busy = true) (hd : s.delay = d + 1)
    (hins : s.inputs = .wait :: rest) :
    step s = .next { s with delay := d, replies := .word s.status.word :: s.replies } := by
  rw [step_wait hb hd, hostTurn_cons (by exact hins)]
  simp [hostAccess, hostWait, hb, State.reply, hins]

/-- The last turn of WAIT reads STATUS and lets the host go on. -/
theorem step_wait_idle {s : State} {rest : List HostOp} (hb : s.status.busy = false) (hins : s.inputs = .wait :: rest) :
    step s = .next { s with inputs := rest, replies := .word s.status.word :: s.replies } := by
  rw [step_idle hb, hostTurn_cons hins]
  simp [hostAccess, hostWait, hb, State.reply]

theorem State.withFetchWord_toNat (s : State) (w : Word) : s.withFetchWord 32 w.toNat = s.commandStart w 0 := by
  rw [State.withFetchWord, Nat.mod_eq_of_lt w.isLt, BitVec.ofNat_toNat, BitVec.setWidth_eq]

/-! ## Runs through the delay -/

/-- With no operation of the host in the way only the delay passes before the command completes. -/
theorem run_through_delay {s : State} (hb : s.status.busy = true) (hins : s.inputs = []) :
    Sys2Proof.core.run (s.delay + 1) s = complete { s with delay := 0 } := by
  generalize hd : s.delay = d
  induction d generalizing s with
  | zero => rw [Nat.zero_add, run_one, step_complete hb hd, ← hd]
  | succ d ih =>
    have hstep : step s = .next { s with delay := d } := (step_wait hb hd).trans (hostTurn_nil (by exact hins))
    rw [run_next hstep]
    exact ih hb hins rfl

/-- The state when the delay has passed with the host in WAIT: each step of it has answered one more read of STATUS. -/
def State.polledOut (s : State) : State :=
  { s with delay := 0, replies := List.replicate s.delay (.word s.status.word) ++ s.replies }

theorem run_wait_through_delay {s : State} {rest : List HostOp} (hb : s.status.busy = true)
    (hins : s.inputs = .wait :: rest) (k : Nat) :
    Sys2Proof.core.run (s.delay + k) s = Sys2Proof.core.run k s.polledOut := by
  unfold State.polledOut
  generalize hd : s.delay = d
  induction d generalizing s with
  | zero => rw [Nat.zero_add, List.replicate_zero, List.nil_append, ← hd]
  | succ d ih =>
    rw [Nat.add_right_comm, run_next (step_wait_busy hb hd hins), List.replicate_succ', List.append_assoc]
    exact ih hb hins rfl

/-- One step, and one turn of WAIT after it. -/
theorem run_wait_after {s t : State} {rest : List HostOp} (hstep : step s = .next t) (hb : t.status.busy = false)
    (hins : t.inputs = .wait :: rest) :
    Sys2Proof.core.run 2 s = .next { t with inputs := rest, replies := .word t.status.word :: t.replies } := by
  rw [run_next hstep, run_one]
  exact step_wait_idle hb hins

/-! ## The obligations -/

/-- Settles O1. -/
theorem commandWordsDecode : Obligations.CommandWordsDecode := by
  unfold Obligations.CommandWordsDecode
  decide

/-- Settles O2: the statement is the decoder's characterization itself. -/
theorem decodeAcceptsExactlyEncodings : Obligations.DecodeAcceptsExactlyEncodings := fun _ _ => decode_eq_ok_iff

/-- Settles O3: a reserved word is no command's encoding, so the completing step raises IllegalCommand. -/
theorem reservedWordsAreIllegal : Obligations.ReservedWordsAreIllegal := by
  intro s hb hd hres
  obtain ⟨e, he⟩ := decode_reserved hres
  exact step_complete_error hb hd he

/-- Settles O4: the CMD write is a command start, and the completing step runs or rejects the accepted word. -/
theorem commandStartClearsAndLatches : Obligations.CommandStartClearsAndLatches :=
  ⟨fun _ _ _ hb hins => step_cmd_write hb hins,
    fun _ hb hd => ⟨fun _ => step_complete_ok hb hd, fun _ => step_complete_error hb hd⟩⟩

/-- Settles O5: `settled` changes a next state only, and `withFetchWord` places the word itself. -/
theorem stepRunsTheDecodedCommand : Obligations.StepRunsTheDecodedCommand := by
  refine ⟨fun s i hb hd hi => ?_, fun s w i hi => ?_⟩
  · rw [step_complete_ok hb hd hi]
    exact ⟨fun t ht => congrArg settled ht, fun f hf => congrArg settled hf⟩
  · rw [s.withFetchWord_toNat]
    exact step_complete_ok rfl rfl hi

/-- Settles O6: the delay passes, and the step after it completes the command. -/
theorem commandCompletesAfterItsDelay : Obligations.CommandCompletesAfterItsDelay := by
  intro s hb hins
  rw [run_through_delay hb hins]
  exact ⟨fun _ hi => complete_ok hi, fun _ he => complete_error he⟩

/-- Settles O7: the delay passes in turns of WAIT, then come the completing step and one more turn. -/
theorem waitLoopEnds : Obligations.WaitLoopEnds := by
  intro s rest hb hins
  rw [run_wait_through_delay hb hins]
  refine ⟨fun i t hi hexec => ⟨exec_busy hexec, ?_⟩, fun e he => ?_⟩
  · obtain ⟨hinputs, -⟩ := exec_keeps hexec
    have hstep : step s.polledOut = .next t.settle :=
      (step_complete_ok (s := s.polledOut) hb rfl hi).trans (congrArg settled hexec)
    exact run_wait_after hstep (exec_busy (t := t) hexec) (hinputs.trans hins)
  · exact run_wait_after (step_complete_error (s := s.polledOut) hb rfl he) rfl hins

/-- Settles O8: NOP's meaning is `finish`; its run is command start, the delay, and that. -/
theorem nopOnlyStartsAndFinishes : Obligations.NopOnlyStartsAndFinishes := by
  refine ⟨fun w => decode_eq_ok_iff, fun s => rfl, fun s hb hins => ?_⟩
  have hstatus : ({ s.status with err := false, found := false } : Status) =
      { busy := false, err := false, found := false, cvalid := s.status.cvalid } := by simp only [hb]
  rw [run_next (step_cmd_write hb hins), hstatus]
  refine (run_through_delay (s := State.commandStart _ _ _) rfl rfl).trans ?_
  rw [complete_ok (i := .nop) (decode_eq_ok_iff.mpr rfl)]
  rfl

/-- Settles O13. -/
theorem errorNumbersAreTheTables : Obligations.ErrorNumbersAreTheTables := by
  unfold Obligations.ErrorNumbersAreTheTables
  decide

end Sys2Proof.Machine
end

section
/-! PROOFS. The host's accesses to an idle and to a busy block (20_memory.md R64, R69; 70_reset_and_hazards.md R268) and the
resets (70_reset_and_hazards.md R260 to R270). -/

namespace Sys2Proof.Machine

/-! ## The host's turn -/

/-- The host has its turn when no command runs or the running one's delay lasts; how much of the delay is left then, no
access looks at. -/
theorem step_host {s : State} {op : HostOp} {rest : List HostOp} (h : s.status.busy = false ∨ 0 < s.delay)
    (hins : s.inputs = op :: rest) : ∃ d, step s = hostAccess { s with delay := d, inputs := rest } op := by
  rcases hb : s.status.busy
  · exact ⟨s.delay, (step_idle hb).trans (hostTurn_cons hins)⟩
  · obtain ⟨d, hd⟩ := Nat.exists_eq_add_one.mpr (h.resolve_left (by simp [hb]))
    exact ⟨d, (step_wait hb hd).trans (hostTurn_cons hins)⟩

/-- A busy block's step while the delay lasts is its host's next access. -/
theorem step_wait_cons {s : State} {d : Nat} (hb : s.status.busy = true) (hd : s.delay = d + 1) (op : HostOp)
    (rest : List HostOp) : step { s with inputs := op :: rest } = hostAccess { s with delay := d, inputs := rest } op :=
  (step_wait (s := { s with inputs := op :: rest }) hb hd).trans (hostTurn_cons rfl)

/-! ## Accesses that BUSY does not forbid -/

theorem hostRead_status (s : State) : hostRead s 32 Reg.status.offset = .next (s.reply (.word s.status.word)) := by
  simp [hostRead, State.readReg]

theorem hostWrite_ctrl (s : State) (v : Word) : hostWrite s 32 Reg.ctrl.offset v = .next (s.writeReg .ctrl v) := by
  simp [hostWrite]

theorem State.writeReg_ctrl_bit0_set (s : State) {v : Word} (hv : v.getLsbD 0 = true) :
    s.writeReg .ctrl v = s.softReset := by
  rw [State.writeReg, if_pos hv]

/-- BUSY is bit 0 of STATUS (R24). -/
theorem Status.word_bit0 (t : Status) : t.word.getLsbD 0 = t.busy := by
  obtain ⟨busy, err, found, cvalid⟩ := t
  revert busy err found cvalid
  decide

/-! ## Accesses that BUSY forbids (R268) -/

section Busy

variable {s : State} (hb : s.status.busy = true)
include hb

theorem hostRead_busy {off : Nat} (hw : registerAccessWf 32 off = true) (hoff : off ≠ Reg.status.offset) :
    hostRead s 32 off = .fault .accessWhileBusy := by
  rcases hr : registerAt off with _ | r
  · simp [hostRead, hw, hr, hb]
  · have hne : r ≠ .status := by rintro rfl; exact hoff (registerAt_eq_some_iff.mp hr)
    simp [hostRead, hw, hr, hb, hne]

theorem hostWrite_busy {off : Nat} (v : Word) (hw : registerAccessWf 32 off = true) (hoff : off ≠ Reg.ctrl.offset) :
    hostWrite s 32 off v = .fault .accessWhileBusy := by
  rcases hr : registerAt off with _ | r
  · simp [hostWrite, hw, hr, hb]
  · have hne : r ≠ .ctrl := by rintro rfl; exact hoff (registerAt_eq_some_iff.mp hr)
    simp [hostWrite, hw, hr, hb, hne]

theorem bufRead_busy (a : Nat) : bufRead s a = .fault .accessWhileBusy := if_pos hb

theorem bufWrite_busy (a : Nat) (b : Byte) : bufWrite s a b = .fault .accessWhileBusy := if_pos hb

end Busy

/-! ## Reads of an idle block -/

/-- What an idle block answers to a read: the register's word, 0 at a reserved offset, or the byte of the buffer. No earlier
reply enters it. -/
inductive Reads (s : State) : HostOp → Reply → Prop where
  | register (r : Reg) : Reads s (.rd 32 r.offset) (.word (s.readReg r))
  | reserved {off : Nat} (hw : registerAccessWf 32 off = true) (hr : registerAt off = none) :
      Reads s (.rd 32 off) (.word 0)
  | byte {a : Nat} {b : Byte} (ha : a < s.params.bufBytes.toNat) (hr : s.buf.read a = some b) : Reads s (.rb a) (.byte b)

theorem Reads.access {s : State} {op : HostOp} {r : Reply} (hb : s.status.busy = false) (h : Reads s op r) :
    hostAccess s op = .next (s.reply r) := by
  cases h with
  | register r => exact hostRead_register hb r
  | reserved hw hr => exact hostRead_reserved hb hw hr
  | byte ha hr => exact bufRead_written hb ha hr

theorem State.readReg_reply (s : State) (x : Reply) (r : Reg) : (s.reply x).readReg r = s.readReg r := by
  cases r <;> rfl

theorem Reads.reply {s : State} {op : HostOp} {r : Reply} (h : Reads s op r) (x : Reply) : Reads (s.reply x) op r := by
  cases h with
  | register r => exact s.readReg_reply x r ▸ .register r
  | reserved hw hr => exact .reserved hw hr
  | byte ha hr => exact .byte ha hr

/-- A register or buffer read that does not fault is one of `Reads`. -/
theorem reads_of_next {s t : State} {op : HostOp} (hb : s.status.busy = false)
    (hop : (∃ width off, op = .rd width off) ∨ ∃ a, op = .rb a) (h : hostAccess s op = .next t) : ∃ r, Reads s op r := by
  rcases hop with ⟨width, off, rfl⟩ | ⟨a, rfl⟩
  · change hostRead s width off = .next t at h
    rcases hw : registerAccessWf width off
    · rw [hostRead_malformed s hw] at h
      cases h
    · obtain ⟨rfl, -⟩ := (registerAccessWf_iff width off).mp hw
      rcases hr : registerAt off with _ | r
      · exact ⟨_, .reserved hw hr⟩
      · exact registerAt_eq_some_iff.mp hr ▸ ⟨_, .register r⟩
  · change bufRead s a = .next t at h
    by_cases ha : a < s.params.bufBytes.toNat
    · rcases hr : s.buf.read a with _ | b
      · rw [bufRead_unwritten hb ha hr] at h
        cases h
      · exact ⟨_, .byte ha hr⟩
    · rw [bufRead_outside hb (not_lt.mp ha)] at h
      cases h

/-! ## What an abort erases (R270) -/

theorem chunkBuildCheck_eq_none_iff {s : State} : chunkBuildCheck s = none ↔ typeOk s.ty = true ∧
    s.InRange s.src s.len ∧ s.InRange s.dst (12 + s.len) ∧ ¬ Overlaps s.src s.len s.dst (12 + s.len) := by
  refine ⟨chunkBuildCheck_none, fun ⟨ht, hs, hd, ho⟩ => ?_⟩
  rw [chunkBuildCheck, if_neg (by simp [ht]), if_neg (not_not.mpr hs), if_neg (not_not.mpr hd), if_neg ho]

theorem contSerializeCheck_eq_none_iff {s : State} : contSerializeCheck s = none ↔ s.status.cvalid = true ∧
    s.InRange s.dst (imageLen s.ct) ∧ ∀ e ∈ s.ct, ¬ Overlaps s.dst (imageLen s.ct) e.addr.toNat e.len.toNat := by
  refine ⟨contSerializeCheck_none, fun ⟨hv, hd, ho⟩ => ?_⟩
  rw [contSerializeCheck, if_neg (by simp [hv]), if_neg (not_not.mpr hd), if_neg]
  simpa using ho

theorem outputRange_chunkBuild (s : State) : outputRange s .chunkBuild =
    if chunkBuildCheck s = none then some (s.dst, 12 + s.len) else none := rfl

theorem outputRange_contSerialize (s : State) : outputRange s .contSerialize =
    if contSerializeCheck s = none then some (s.dst, imageLen s.ct) else none := rfl

/-- Only the two commands that write the buffer have an output range. -/
theorem outputRange_of_ne (s : State) {i : Instr} (hb : i ≠ .chunkBuild) (hs : i ≠ .contSerialize) :
    outputRange s i = none := by
  cases i <;> simp [outputRange] at hb hs ⊢

theorem State.read_abortedBuf_of_range {s : State} {i : Instr} {a n : Nat} (hb : s.status.busy = true)
    (hi : decode s.cmdWord = .ok i) (hr : outputRange s i = some (a, n)) (x : Nat) :
    s.abortedBuf.read x = if a ≤ x ∧ x < a + n then none else s.buf.read x := by
  rw [← Memory.read_eraseRange]
  simp [State.abortedBuf, hb, hi, hr]

theorem State.abortedBuf_of_none {s : State} (h : ∀ i, decode s.cmdWord = .ok i → outputRange s i = none) :
    s.abortedBuf = s.buf := by
  unfold State.abortedBuf
  split
  · rcases hd : decode s.cmdWord with e | i
    · rfl
    · simp only [h i hd]
  · rfl

/-- An abort changes no byte where neither command that writes the buffer runs with its checks passed. -/
theorem State.abortedBuf_of_no_output {s : State} (hcb : s.cmdWord = 0x21 → chunkBuildCheck s ≠ none)
    (hcs : s.cmdWord = 0x31 → contSerializeCheck s ≠ none) : s.abortedBuf = s.buf := by
  refine State.abortedBuf_of_none fun i hi => ?_
  have hw := decode_eq_ok_iff.mp hi
  by_cases hb : i = .chunkBuild
  · subst hb
    rw [outputRange_chunkBuild, if_neg (hcb hw)]
  · by_cases hs : i = .contSerialize
    · subst hs
      rw [outputRange_contSerialize, if_neg (hcs hw)]
    · exact outputRange_of_ne s hb hs

/-! ## The resets as steps -/

theorem step_hardReset {s : State} {rest : List HostOp} (h : s.status.busy = false ∨ 0 < s.delay)
    (hins : s.inputs = .hardReset :: rest) : step s = .next ({ s with inputs := rest } : State).hardReset := by
  obtain ⟨d, hstep⟩ := step_host h hins
  exact hstep

theorem step_softReset {s : State} {v : Word} {rest : List HostOp} (h : s.status.busy = false ∨ 0 < s.delay)
    (hv : v.getLsbD 0 = true) :
    step { s with inputs := .wr 32 0x04 v :: rest } = .next (({ s with inputs := rest } : State).resetRegs s.abortedBuf) := by
  obtain ⟨d, hstep⟩ := step_host (s := { s with inputs := .wr 32 0x04 v :: rest }) h rfl
  rw [hstep]
  exact (hostWrite_ctrl _ v).trans (congrArg _ (State.writeReg_ctrl_bit0_set _ hv))

/-- What the completing step leaves of what is not the block's. -/
theorem complete_next {s u : State} (h : complete s = .next u) :
    u.status.busy = false ∧ u.params = s.params ∧ u.inputs = s.inputs ∧ u.replies = s.replies := by
  rcases hd : decode s.cmdWord with e | i
  · rw [complete_error hd] at h
    cases h
    exact ⟨rfl, rfl, rfl, rfl⟩
  · rw [complete_ok hd] at h
    rcases hexec : exec i s with t | f | r <;> rw [hexec] at h <;> cases h
    obtain ⟨hparams, -⟩ := commandsWriteOnlyTheirRegisters i s t hexec
    obtain ⟨hins, hreps, -⟩ := exec_keeps hexec
    exact ⟨exec_busy (t := t) hexec, hparams, hins, hreps⟩

/-! ## The obligations -/

/-- Settles O15: the form of a register access is checked before BUSY is looked at. -/
theorem malformedRegisterAccessFaults : Obligations.MalformedRegisterAccessFaults := by
  intro s width off v rest hbad
  have hw := registerAccessWf_eq_false_iff.mpr hbad
  have faults : s.status.busy = false ∨ 0 < s.delay →
      step { s with inputs := .rd width off :: rest } = .fault .registerAccessMalformed ∧
      step { s with inputs := .wr width off v :: rest } = .fault .registerAccessMalformed := by
    intro h
    obtain ⟨d, hrd⟩ := step_host (s := { s with inputs := .rd width off :: rest }) h rfl
    obtain ⟨d', hwr⟩ := step_host (s := { s with inputs := .wr width off v :: rest }) h rfl
    exact ⟨hrd.trans (hostRead_malformed _ hw), hwr.trans (hostWrite_malformed _ v hw)⟩
  refine ⟨fun hb => faults (.inl hb), fun hb hd => ?_⟩
  obtain ⟨hrd, hwr⟩ := faults (.inr hd)
  exact ⟨⟨_, hrd⟩, ⟨_, hwr⟩⟩

/-- Settles O16: the step is the host's access to a block with BUSY = 1, of which there is one lemma each. -/
theorem busyBlockAllowsOnlyStatusAndCtrl : Obligations.BusyBlockAllowsOnlyStatusAndCtrl := by
  intro s d rest hb hd
  have access := step_wait_cons hb hd (rest := rest)
  have hbusy : ({ s with delay := d, inputs := rest } : State).status.busy = true := hb
  have aligned : ∀ off, off < 0x100 → off % 4 = 0 → registerAccessWf 32 off = true := fun off hlt hal =>
    (registerAccessWf_iff 32 off).mpr ⟨rfl, hal, hlt⟩
  refine ⟨(access _).trans (hostRead_status _), s.status.word_bit0.trans hb, fun v hv => ?ctrlClear, fun v hv => ?ctrlSet,
    fun off hlt hal hoff => (access _).trans (hostRead_busy hbusy (aligned off hlt hal) hoff),
    fun off v hlt hal hoff => (access _).trans (hostWrite_busy hbusy v (aligned off hlt hal) hoff),
    fun width off v hbad => ?malformed, fun a => (access _).trans (bufRead_busy hbusy a),
    fun a b => (access _).trans (bufWrite_busy hbusy a b)⟩
  case ctrlClear =>
    exact (access _).trans ((hostWrite_ctrl _ v).trans (congrArg _ (State.writeReg_ctrl_bit0_clear _ hv)))
  case ctrlSet => exact ⟨_, step_softReset (.inr (by omega)) hv, rfl⟩
  case malformed =>
    have hw := registerAccessWf_eq_false_iff.mpr hbad
    exact ⟨⟨_, (access _).trans (hostRead_malformed _ hw)⟩, ⟨_, (access _).trans (hostWrite_malformed _ v hw)⟩⟩

/-- Settles O18: what a read answers does not depend on the replies, and these are all that a read changes. -/
theorem hostReadsHaveNoSideEffect : Obligations.HostReadsHaveNoSideEffect := by
  intro s t op rest hb hop hstep
  rw [step_idle_cons hb] at hstep
  obtain ⟨r, hr⟩ := reads_of_next (by exact hb) hop hstep
  rw [hr.access (by exact hb)] at hstep
  cases hstep
  exact ⟨r, rfl, (step_idle_cons (by exact hb) op rest).trans ((hr.reply r).access (by exact hb))⟩

/-- Settles O20: a reset that finds the command completing is taken by the idle block after it. -/
theorem hardwareResetClearsTheBlock : Obligations.HardwareResetClearsTheBlock := by
  refine ⟨fun s rest h => ⟨_, step_hardReset h rfl, State.atReset_resetRegs _ [], Memory.read_nil, rfl, rfl, rfl⟩,
    fun s u rest hb hd hins hstep => ?_⟩
  rw [step_complete hb hd] at hstep
  obtain ⟨hidle, hparams, hinputs, hreplies⟩ := complete_next hstep
  exact ⟨_, step_hardReset (.inl hidle) (hinputs.trans hins), State.atReset_resetRegs _ [], Memory.read_nil, hparams, rfl,
    hreplies⟩

/-- Settles O21: with no command running, or one of another word than the two that write, there is nothing to erase. -/
theorem softResetKeepsTheBuffer : Obligations.SoftResetKeepsTheBuffer := by
  intro s v rest h hv
  refine ⟨_, step_softReset h hv, State.atReset_resetRegs _ _, fun hkeep a => ?_, rfl, rfl, rfl⟩
  rw [State.resetRegs_buf]
  rcases hkeep with hidle | ⟨hcb, hcs⟩
  · rw [State.abortedBuf_idle hidle]
  · rw [State.abortedBuf_of_no_output (absurd · hcb) (absurd · hcs)]

/-- Settles O22: the output range is the one of the command's own checks. -/
theorem softResetAbortsTheRunningCommand : Obligations.SoftResetAbortsTheRunningCommand := by
  intro s v rest hb hd hv
  refine ⟨_, step_softReset (.inr hd) hv, State.atReset_resetRegs _ _, rfl, rfl, rfl, ?build, ?serialize, ?other⟩
  case build =>
    intro hw ht hs hdst ho a
    refine State.read_abortedBuf_of_range (i := .chunkBuild) hb (decode_eq_ok_iff.mpr hw) ?_ a
    rw [outputRange_chunkBuild, if_pos (chunkBuildCheck_eq_none_iff.mpr ⟨ht, hs, hdst, ho⟩)]
  case serialize =>
    intro hw hcv hdst ho a
    refine State.read_abortedBuf_of_range (i := .contSerialize) hb (decode_eq_ok_iff.mpr hw) ?_ a
    rw [outputRange_contSerialize, if_pos (contSerializeCheck_eq_none_iff.mpr ⟨hcv, hdst, ho⟩)]
  case other =>
    intro hcb hcs a
    rw [State.resetRegs_buf, State.abortedBuf_of_no_output (fun hw hc => hcb ⟨hw, chunkBuildCheck_none hc⟩)
      fun hw hc => hcs ⟨hw, contSerializeCheck_none hc⟩]

/-- Settles O23: the block after the reset is idle, and STATUS is at its reset value. -/
theorem firstStatusReadAfterResetIsZero : Obligations.FirstStatusReadAfterResetIsZero := by
  intro s rest h
  rw [run_next (step_hardReset (s := { s with inputs := .hardReset :: .rd 32 0x08 :: rest }) h rfl), run_one]
  exact ⟨_, step_rd_register (s := s.hardReset) rfl rest .status, rfl, rfl⟩

end Sys2Proof.Machine
end

section
/-! PROOFS. The CRC function (40_crc.md R110 to R113). -/

namespace Sys2Proof.Machine

/-! ## The table form (R111) -/

/-- Shifting out bits that are all 0 is a plain shift. -/
theorem crcShifts_of_low_zero {n : Nat} {c : Word} (h : ∀ k, k < n → c.getLsbD k = false) : crcShifts n c = c >>> n := by
  induction n generalizing c with
  | zero => exact (BitVec.ushiftRight_zero c).symm
  | succ n ih =>
    have hshift : crcShift c = c >>> 1 := by rw [crcShift, h 0 (by omega)]; rfl
    have hlow : ∀ k, k < n → (c >>> 1).getLsbD k = false := fun k hk => by
      rw [BitVec.getLsbD_ushiftRight]
      exact h (1 + k) (by omega)
    rw [crcShifts, hshift, ih hlow, ← BitVec.shiftRight_add, Nat.add_comm]

/-- The low byte of a word and the rest of it go through the eight shifts apart, and the rest goes through unchanged. -/
theorem crcShifts_eight (x : Word) : crcShifts 8 x = crcShifts 8 (x &&& 0xFF) ^^^ (x >>> 8) := by
  have mask : ∀ k, (0xFF : Word).getLsbD k = decide (k < 8) := fun k => by
    rw [show (0xFF : Word) = BitVec.ofNat 32 (2 ^ 8 - 1) from rfl, BitVec.getLsbD_ofNat, Nat.testBit_two_pow_sub_one]
    by_cases hk : k < 8
    · simp [hk]; omega
    · simp [hk]
  have hlow : ∀ k, k < 8 → (x ^^^ (x &&& 0xFF)).getLsbD k = false := fun k hk => by
    rw [BitVec.getLsbD_xor, BitVec.getLsbD_and, mask, decide_eq_true hk, Bool.and_true, Bool.xor_self]
  have hhigh : (x &&& 0xFF) >>> 8 = 0#32 := by
    refine BitVec.eq_of_getLsbD_eq fun k _ => ?_
    rw [BitVec.getLsbD_ushiftRight, BitVec.getLsbD_and, mask, decide_eq_false (by omega), Bool.and_false,
      BitVec.getLsbD_zero]
  calc crcShifts 8 x = crcShifts 8 ((x &&& 0xFF) ^^^ (x ^^^ (x &&& 0xFF))) := by
        rw [BitVec.xor_comm x, ← BitVec.xor_assoc, BitVec.xor_self, BitVec.zero_xor]
    _ = crcShifts 8 (x &&& 0xFF) ^^^ (x >>> 8) := by
        rw [crcShifts_xor, crcShifts_of_low_zero hlow, BitVec.ushiftRight_xor_distrib, hhigh, BitVec.xor_zero]

theorem crcTable_getElem? : ∀ n, n < 256 → crcTable[n]? = some (crcStep 0 (BitVec.ofNat 8 n)) := by
  decide +kernel

/-- The table entry a step looks up is the eight shifts of the word's low byte. -/
theorem crcTable_getD_low (x : Word) : crcTable.getD (x &&& 0xFF).toNat 0 = crcShifts 8 (x &&& 0xFF) := by
  have hlt : (x &&& 0xFF).toNat < 256 := by
    rw [BitVec.toNat_and]
    exact Nat.lt_succ_of_le Nat.and_le_right
  have hbyte : (BitVec.ofNat 8 (x &&& 0xFF).toNat).setWidth 32 = x &&& 0xFF := by
    refine BitVec.eq_of_toNat_eq ?_
    rw [BitVec.toNat_setWidth, BitVec.toNat_ofNat, Nat.mod_eq_of_lt hlt, Nat.mod_eq_of_lt (by omega)]
  rw [List.getD_eq_getElem?_getD, crcTable_getElem? _ hlt, Option.getD_some, crcStep, hbyte]
  exact congrArg _ BitVec.zero_xor

/-- A byte has no bit above the low eight of a word. -/
theorem xor_byte_ushiftRight_eight (c : Word) (b : Byte) : (c ^^^ b.setWidth 32) >>> 8 = c >>> 8 := by
  have hb : (b.setWidth 32) >>> 8 = 0#32 := by
    refine BitVec.eq_of_toNat_eq ?_
    have := b.isLt
    rw [BitVec.toNat_ushiftRight, BitVec.toNat_setWidth, Nat.shiftRight_eq_div_pow, BitVec.toNat_zero]
    omega
  rw [BitVec.ushiftRight_xor_distrib, hb, BitVec.xor_zero]

/-! ## Flipping a bit (R113(e)) -/

/-- A flipped byte is another byte. -/
theorem xor_bit_ne (b : Byte) {j : Nat} (hj : j < 8) : b ^^^ ((1 : Byte) <<< j) ≠ b := by
  have hbit : (1 : Byte) <<< j ≠ 0 := by interval_cases j <;> decide
  exact fun h => hbit (by simpa using congrArg (b ^^^ ·) h)

/-- Different bytes lead one CRC state to different states. -/
theorem crcStep_byte_injective (c : Word) {b b' : Byte} (h : crcStep c b = crcStep c b') : b = b' := by
  have hword : b.setWidth 32 = b'.setWidth 32 := by simpa using congrArg (c ^^^ ·) (crcShifts_injective 8 h)
  have hb : ∀ x : Byte, (x.setWidth 32).setWidth 8 = x := fun x => by simp
  rw [← hb b, ← hb b', hword]

/-- Sequences that differ in one byte have different CRCs. -/
theorem crc32_ne_of_byte_ne (x y : List Byte) {b b' : Byte} (h : b ≠ b') : crc32 (x ++ b :: y) ≠ crc32 (x ++ b' :: y) := by
  intro hcrc
  have hfold : crcFold 0xFFFFFFFF (x ++ b :: y) = crcFold 0xFFFFFFFF (x ++ b' :: y) := by
    exact (BitVec.xor_left_inj _).mp hcrc
  simp only [crcFold_append, crcFold_cons] at hfold
  exact h (crcStep_byte_injective _ (crcFold_injective y hfold))

/-- The flip of a bit by the bytes around it. -/
theorem flipBit_eq (bs : List Byte) {k : Nat} (j : Nat) (hk : k < bs.length) :
    flipBit bs k j = bs.take k ++ (bs[k] ^^^ ((1 : Byte) <<< j)) :: bs.drop (k + 1) :=
  List.modify_eq_take_cons_drop hk

theorem crc32_flipBit_ne (bs : List Byte) {k j : Nat} (hk : k < bs.length) (hj : j < 8) :
    crc32 (flipBit bs k j) ≠ crc32 bs := by
  have hsplit : bs = bs.take k ++ bs[k] :: bs.drop (k + 1) := by
    rw [← List.drop_eq_getElem_cons hk, List.take_append_drop]
  rw [flipBit_eq bs j hk]
  conv_rhs => rw [hsplit]
  exact crc32_ne_of_byte_ne _ _ (xor_bit_ne _ hj)

/-! ## Neighbouring ranges (R113(a)) -/

/-- A range with no unwritten byte holds some bytes. -/
theorem State.exists_holds_of_not_unwritten {s : State} {a n : Nat} (h : ¬ s.Unwritten a n) :
    ∃ d : List Byte, d.length = n ∧ s.Holds a d := by
  obtain ⟨d, hd⟩ := Option.ne_none_iff_exists'.mp (mt (Memory.readRange_eq_none s.buf a n).mp h)
  obtain rfl := Memory.length_of_readRange hd
  exact ⟨d, rfl, (s.holds_iff a d).mpr hd⟩

/-- CRC_UPDATE of a range told apart from the latch that names it. -/
theorem exec_crcUpdate_at {s : State} {a : Nat} {d : List Byte} (hsrc : s.src = a) (hlen : s.len = d.length)
    (hr : a + d.length ≤ s.params.bufBytes.toNat) (hd : s.Holds a d) : exec .crcUpdate s =
      .next { s with crcState := crcFold s.crcState d, status := { s.status with busy := false } } := by
  subst hsrc
  exact State.foldRange_of_holds _ (hlen ▸ hr) hlen.symm hd

/-! ## The obligations -/

/-- Settles O28: one range's bytes are those of the two ranges in a row, and a fold goes through them piece by piece. -/
theorem crcUpdatesSplit : Obligations.CrcUpdatesSplit := by
  intro s t u m n hlen hr hw ht hu
  obtain ⟨d, hd, hholds⟩ := State.exists_holds_of_not_unwritten hw
  obtain ⟨x, y, rfl, hx, hy⟩ : ∃ x y, d = x ++ y ∧ x.length = m ∧ y.length = n :=
    ⟨d.take m, d.drop m, (List.take_append_drop m d).symm, by simp; omega, by simp; omega⟩
  obtain ⟨hhx, hhy⟩ := (s.holds_append s.src x y).mp hholds
  have hbound : s.src + (m + n) < 2 ^ 32 := lt_of_le_of_lt (hlen ▸ hr) s.params.bufBytes.isLt
  have hm : (BitVec.ofNat 32 m).toNat = m := Nat.mod_eq_of_lt (by omega)
  have hn : (BitVec.ofNat 32 n).toNat = n := Nat.mod_eq_of_lt (by omega)
  have hsrc : (BitVec.ofNat 32 (s.src + m)).toNat = s.src + m := Nat.mod_eq_of_lt (by omega)
  have hr' : s.src + (m + n) ≤ s.params.bufBytes.toNat := hlen ▸ hr
  cases ht.symm.trans (exec_crcUpdate_at (a := s.src) rfl (hm.trans hx.symm) (by exact le_trans (by omega) hr') hhx)
  cases hu.symm.trans (exec_crcUpdate_at hsrc (hn.trans hy.symm) (by exact le_trans (by omega) hr') (by exact hx ▸ hhy))
  exact ⟨_, exec_crcUpdate_at rfl hd.symm (hd.symm ▸ hr) hholds, crcFold_append _ x y⟩

/-- Settles O29: a step is the eight shifts of the low byte, which the table lists, and a plain shift of the rest. -/
theorem crcTableFormAgrees : Obligations.CrcTableFormAgrees := by
  refine ⟨crcTable_getElem?, fun c b => ?_⟩
  rw [crcStepByTable, crcTable_getD_low, crcStep, crcShifts_eight (c ^^^ _), xor_byte_ushiftRight_eight]

/-- Settles O30. -/
theorem singleBitFlipChangesTheCrc : Obligations.SingleBitFlipChangesTheCrc := fun bs _ _ => crc32_flipBit_ne bs

/-- Settles O31. -/
theorem crcCheckValues : Obligations.CrcCheckValues := by
  unfold Obligations.CrcCheckValues
  decide +kernel

end Sys2Proof.Machine
end

section
/-! PROOFS. The two commands of the chunk unit (42_chunk.md R150 to R156). -/

namespace Sys2Proof.Machine

/-! ## CHUNK_PARSE (R152) -/

/-- SRC is an address that came out of a 32-bit register. -/
@[simp] theorem State.ofNat_src (s : State) : BitVec.ofNat 32 s.src = s.latch.srcAddr :=
  (BitVec.ofNat_toNat 32 _).trans (BitVec.setWidth_eq _)

/-- LEN is a length that came out of a 32-bit register. -/
@[simp] theorem State.ofNat_len (s : State) : BitVec.ofNat 32 s.len = s.latch.srcLen :=
  (BitVec.ofNat_toNat 32 _).trans (BitVec.setWidth_eq _)

section ChunkParse

variable {s : State} {b : List Byte}

theorem exec_chunkParse_outside (h : ¬ s.InRange s.src s.len) : exec .chunkParse s =
    .next (s.failed { code := .rangeError, field := .operand, offset := 0x20, index := 0 }) :=
  if_pos h

theorem exec_chunkParse_of_unwritten (h : s.InRange s.src s.len) (hu : s.Unwritten s.src s.len) :
    exec .chunkParse s = .fault .commandReadUnwritten :=
  (if_neg (not_not.mpr h)).trans (State.withBytes_of_unwritten _ hu)

variable (h : s.InRange s.src s.len) (hl : b.length = s.len) (hb : s.Holds s.src b)
include h hl hb

theorem exec_chunkParse_of_error {e : ErrorRecord} (hp : parseFrame s.src b = .error e) :
    exec .chunkParse s = .next (s.failed e) := by
  refine (if_neg (not_not.mpr h)).trans ((State.withBytes_of_holds _ hl hb).trans ?_)
  rw [hp]
  rfl

theorem exec_chunkParse_of_ok {e : Descriptor} (hp : parseFrame s.src b = .ok e) :
    exec .chunkParse s = .next { s with
      res := { s.res with
        len := e.len
        type := e.type
        crc := e.crc
        dataAddr := e.addr
        outLen := BitVec.ofNat 32 (12 + e.len.toNat) }
      typeFlags := typeFlagsOf e.type
      status := { s.status with busy := false } } := by
  refine (if_neg (not_not.mpr h)).trans ((State.withBytes_of_holds _ hl hb).trans ?_)
  rw [hp]
  rfl

end ChunkParse

/-! ## CHUNK_BUILD (R156) -/

section ChunkBuild

variable {s : State}

theorem exec_chunkBuild_of_error {e : ErrorRecord} (h : chunkBuildCheck s = some e) :
    exec .chunkBuild s = .next (s.failed e) := by
  rw [exec, execChunkBuild, h]
  rfl

theorem exec_chunkBuild_of_unwritten (h : chunkBuildCheck s = none) (hu : s.Unwritten s.src s.len) :
    exec .chunkBuild s = .fault .commandReadUnwritten := by
  rw [exec, execChunkBuild, h]
  exact State.withBytes_of_unwritten _ hu

theorem exec_chunkBuild_of_holds {d : List Byte} (h : chunkBuildCheck s = none) (hl : d.length = s.len)
    (hd : s.Holds s.src d) : exec .chunkBuild s = .next { s with
      buf := s.buf.writeRange s.dst (frameBytes s.latch.srcLen s.ty d (crc32 (be32Bytes s.ty ++ d)))
      res := { s.res with
        len := s.latch.srcLen
        type := s.ty
        crc := crc32 (be32Bytes s.ty ++ d)
        dataAddr := BitVec.ofNat 32 (s.dst + 8)
        outLen := BitVec.ofNat 32 (12 + s.len) }
      typeFlags := typeFlagsOf s.ty
      status := { s.status with busy := false } } := by
  rw [exec, execChunkBuild, h]
  dsimp only
  rw [State.withBytes_of_holds _ hl hd]
  rfl

theorem chunkBuildCheck_of_firstBad {k : Nat} (hk : k < 4) (hbad : isAlpha (typeByte s.ty k) = false)
    (hmin : ∀ j, j < k → isAlpha (typeByte s.ty j) = true) :
    chunkBuildCheck s = some (errorAt .invalidTypeBytes .type k 0) := by
  rw [chunkBuildCheck, if_pos (by rw [typeOk_eq_false _ k hk hbad]; rfl), firstBad_eq _ k hk hbad hmin]

variable (ht : typeOk s.ty = true)
include ht

theorem chunkBuildCheck_source (h : ¬ s.InRange s.src s.len) :
    chunkBuildCheck s = some (errorAt .rangeError .operand 0x20 0) := by
  rw [chunkBuildCheck, if_neg (by rw [ht]; decide), if_pos h]

theorem chunkBuildCheck_destination (h : s.InRange s.src s.len) (hd : ¬ s.InRange s.dst (12 + s.len)) :
    chunkBuildCheck s = some (errorAt .rangeError .operand 0x28 0) := by
  rw [chunkBuildCheck, if_neg (by rw [ht]; decide), if_neg (not_not.mpr h), if_pos hd]

theorem chunkBuildCheck_overlap (h : s.InRange s.src s.len) (hd : s.InRange s.dst (12 + s.len))
    (ho : Overlaps s.src s.len s.dst (12 + s.len)) : chunkBuildCheck s = some (errorAt .overlapError .operand 0x28 0) := by
  rw [chunkBuildCheck, if_neg (by rw [ht]; decide), if_neg (not_not.mpr h), if_neg (not_not.mpr hd), if_pos ho]

end ChunkBuild

/-! ## Reading back what was written -/

/-- Bytes outside a written range are as before. -/
theorem Memory.read_writeRange_outside (m : Memory) {a n x : Nat} {bs : List Byte} (hl : bs.length = n)
    (hx : x < a ∨ a + n ≤ x) : (m.writeRange a bs).read x = m.read x := by
  rw [Memory.read_writeRange, if_neg (by omega)]

/-- Where a frame stands, its data stands 8 bytes on (R151). -/
theorem State.holds_frame_data {s : State} {a : Nat} {len t crc : Word} {d : List Byte}
    (h : s.Holds a (frameBytes len t d crc)) : s.Holds (a + 8) d := by
  obtain ⟨hbody, -⟩ := (s.holds_append a _ _).mp h
  obtain ⟨-, hdata⟩ := (s.holds_append a _ _).mp hbody
  exact hdata

/-! ## A frame with one bit flipped (R154) -/

/-- The number, in a 32-bit field, of bit `j` of its byte `q`: the first byte is the most significant (R12). -/
def fieldBit (q j : Nat) : Nat := 8 * (3 - q) + j

/-- A field with its bit `m` flipped. -/
def flipField (v : Word) (m : Nat) : Word := v ^^^ BitVec.twoPow 32 m

/-- Byte `i` of a field, of which R90 speaks for a type code, has the flipped bit where it is byte `q`. -/
theorem typeByte_flipField (v : Word) {q j i : Nat} (hq : q < 4) (hj : j < 8) (hi : i < 4) :
    typeByte (flipField v (fieldBit q j)) i = typeByte v i ^^^ if i = q then (1 : Byte) <<< j else 0#8 := by
  have mask : ∀ j < 8, ∀ q < 4, ∀ i < 4, typeByte (BitVec.twoPow 32 (fieldBit q j)) i =
      if i = q then (1 : Byte) <<< j else 0#8 := by decide +kernel
  rw [← mask j hj q hq i hi]
  exact BitVec.extractLsb'_xor

theorem flipBit_be32Bytes (v : Word) {q j : Nat} (hq : q < 4) (hj : j < 8) :
    flipBit (be32Bytes v) q j = be32Bytes (flipField v (fieldBit q j)) := by
  have bytes : ∀ w, be32Bytes w = [typeByte w 0, typeByte w 1, typeByte w 2, typeByte w 3] := fun _ => rfl
  rw [bytes, bytes, typeByte_flipField v hq hj (by decide), typeByte_flipField v hq hj (by decide),
    typeByte_flipField v hq hj (by decide), typeByte_flipField v hq hj (by decide)]
  interval_cases q <;> simp [flipBit]

theorem flipField_ne (v : Word) {m : Nat} (hm : m < 32) : flipField v m ≠ v := by
  intro h
  have hbit : (v ^^^ BitVec.twoPow 32 m).getLsbD m = v.getLsbD m := congrArg (·.getLsbD m) h
  simp [hm] at hbit

theorem fieldBit_lt {q j : Nat} (hq : q < 4) (hj : j < 8) : fieldBit q j < 32 := by
  unfold fieldBit; omega

/-- Flipping a bit that is 0 adds its weight. -/
theorem flipField_toNat_of_clear (v : Word) {m : Nat} (hm : m < 32) (hv : v.getLsbD m = false) :
    (flipField v m).toNat = v.toNat + 2 ^ m := by
  have hand : v &&& BitVec.twoPow 32 m = 0#32 := by rw [BitVec.and_twoPow, hv]; rfl
  have hxor : flipField v m = v + BitVec.twoPow 32 m := by
    rw [BitVec.add_eq_or_of_and_eq_zero _ _ hand]
    refine BitVec.eq_of_getLsbD_eq fun i hi => ?_
    have hbit : (v &&& BitVec.twoPow 32 m).getLsbD i = false := by rw [hand, BitVec.getLsbD_zero]
    rw [BitVec.getLsbD_and] at hbit
    rw [flipField, BitVec.getLsbD_xor, BitVec.getLsbD_or]
    revert hbit
    cases v.getLsbD i <;> cases (BitVec.twoPow 32 m).getLsbD i <;> decide
  rw [hxor, BitVec.toNat_add_of_and_eq_zero hand, BitVec.toNat_twoPow_of_lt hm]

/-- Flipping a bit that is 1 takes its weight away. -/
theorem flipField_toNat_of_set (v : Word) {m : Nat} (hm : m < 32) (hv : v.getLsbD m = true) :
    (flipField v m).toNat + 2 ^ m = v.toNat := by
  have hback : flipField (flipField v m) m = v := by rw [flipField, flipField, BitVec.xor_assoc, BitVec.xor_self, BitVec.xor_zero]
  have hclear : (flipField v m).getLsbD m = false := by simp [flipField, hv, hm]
  rw [← flipField_toNat_of_clear _ hm hclear, hback]

theorem flipBit_append_left {x : List Byte} (y : List Byte) {k : Nat} (j : Nat) (hk : k < x.length) :
    flipBit (x ++ y) k j = flipBit x k j ++ y := by
  induction x generalizing k with
  | nil => simp at hk
  | cons b x ih =>
    cases k with
    | zero => rfl
    | succ k => exact congrArg (b :: ·) (ih (Nat.lt_of_succ_lt_succ hk))

theorem flipBit_append_right (x y : List Byte) (k j : Nat) :
    flipBit (x ++ y) (x.length + k) j = x ++ flipBit y k j := by
  induction x with
  | nil => rw [List.length_nil, Nat.zero_add]; rfl
  | cons b x ih =>
    rw [List.length_cons, Nat.add_right_comm]
    exact congrArg (b :: ·) ih

@[simp] theorem flipBit_length (bs : List Byte) (k j : Nat) : (flipBit bs k j).length = bs.length :=
  List.length_modify ..

section FrameFlip

variable (len t crc : Word) (d : List Byte) {q j : Nat} (hq : q < 4) (hj : j < 8)

section
include hq hj

theorem flipBit_frame_len : flipBit (frameBytes len t d crc) q j = frameBytes (flipField len (fieldBit q j)) t d crc := by
  simp only [frameBytes, List.append_assoc]
  rw [flipBit_append_left _ j (by simpa using hq), flipBit_be32Bytes len hq hj]

theorem flipBit_frame_type :
    flipBit (frameBytes len t d crc) (4 + q) j = frameBytes len (flipField t (fieldBit q j)) d crc := by
  simp only [frameBytes, List.append_assoc]
  rw [← be32Bytes_length len, flipBit_append_right, flipBit_append_left _ j (by simpa using hq),
    flipBit_be32Bytes t hq hj]

theorem flipBit_frame_crc :
    flipBit (frameBytes len t d crc) (8 + d.length + q) j = frameBytes len t d (flipField crc (fieldBit q j)) := by
  have hbody : 8 + d.length = (be32Bytes len ++ be32Bytes t ++ d).length := by simp; omega
  rw [frameBytes, hbody, flipBit_append_right, flipBit_be32Bytes crc hq hj, frameBytes]

end

theorem flipBit_frame_data {k : Nat} (j : Nat) (hk : k < d.length) :
    flipBit (frameBytes len t d crc) (8 + k) j = frameBytes len t (flipBit d k j) crc := by
  have hhead : 8 + k = (be32Bytes len ++ be32Bytes t).length + k := by simp
  rw [frameBytes, List.append_assoc, hhead, flipBit_append_right, flipBit_append_left _ j hk, ← List.append_assoc,
    frameBytes]

end FrameFlip

theorem frameBytes_eq_header (len t crc : Word) (d : List Byte) :
    frameBytes len t d crc = be32Bytes len ++ be32Bytes t ++ (d ++ be32Bytes crc) := by
  rw [frameBytes, List.append_assoc _ d]

/-- Bit 5 is the case of a letter, so flipping it leaves a letter. -/
theorem isAlpha_flip_case : ∀ b : Byte, isAlpha b = true → isAlpha (b ^^^ ((1 : Byte) <<< 5)) = true := by
  decide +kernel

/-! ## What the frame parser answers on a flipped frame (R154) -/

section ParseFlip

variable (base : Nat) {c : Chunk} (hc : c.ok) {q j : Nat}
include hc

theorem parseFrame_flip_crc (hq : q < 4) (hj : j < 8) : parseFrame base (flipBit c.frame (8 + c.data.length + q) j) =
    .error (errorAt .checksumMismatch .crc (base + 8 + c.data.length) 0) := by
  have hcrc : flipField c.crc (fieldBit q j) ≠ crc32 (be32Bytes c.type ++ c.data) :=
    flipField_ne c.crc (fieldBit_lt hq hj)
  rw [Chunk.frame, flipBit_frame_crc _ _ _ _ hq hj,
    parseFrame_mismatch base _ _ _ _ hc.1 (Chunk.len_toNat hc).symm hcrc,
    Chunk.len_toNat hc]

theorem parseFrame_flip_data (hq : q < c.data.length) (hj : j < 8) : parseFrame base (flipBit c.frame (8 + q) j) =
    .error (errorAt .checksumMismatch .crc (base + 8 + c.data.length) 0) := by
  have hcrc : c.crc ≠ crc32 (be32Bytes c.type ++ flipBit c.data q j) := by
    rw [← flipBit_append_right]
    exact (crc32_flipBit_ne _ (by simpa using hq) hj).symm
  rw [Chunk.frame, flipBit_frame_data _ _ _ _ j hq,
    parseFrame_mismatch base _ _ _ _ hc.1 ((flipBit_length _ _ _).trans (Chunk.len_toNat hc).symm) hcrc,
    Chunk.len_toNat hc]

section

variable (hq : q < 4) (hj : j < 8)
include hq hj

/-- The first byte that is no letter, if any, is the flipped one. -/
theorem typeByte_flip_letters (i : Nat) (hi : i < 4) (hne : i ≠ q) :
    isAlpha (typeByte (flipField c.type (fieldBit q j)) i) = true := by
  rw [typeByte_flipField _ hq hj hi, if_neg hne, BitVec.xor_zero]
  exact (typeOk_iff c.type).mp hc.1 i hi

omit hc in
theorem typeByte_flip_same : typeByte (flipField c.type (fieldBit q j)) q = typeByte c.type q ^^^ (1 : Byte) <<< j := by
  rw [typeByte_flipField _ hq hj hq, if_pos rfl]

theorem parseFrame_flip_type_letter (ha : isAlpha (typeByte c.type q ^^^ (1 : Byte) <<< j) = true) :
    parseFrame base (flipBit c.frame (4 + q) j) =
      .error (errorAt .checksumMismatch .crc (base + 8 + c.data.length) 0) := by
  have ht : typeOk (flipField c.type (fieldBit q j)) = true := (typeOk_iff _).mpr fun i hi => by
    by_cases hiq : i = q
    · rw [hiq, typeByte_flip_same hq hj, ha]
    · exact typeByte_flip_letters hc hq hj i hi hiq
  have hcrc : c.crc ≠ crc32 (be32Bytes (flipField c.type (fieldBit q j)) ++ c.data) := by
    rw [← flipBit_be32Bytes _ hq hj, ← flipBit_append_left _ j (by simpa using hq)]
    exact (crc32_flipBit_ne _ (by simp; omega) hj).symm
  rw [Chunk.frame, flipBit_frame_type _ _ _ _ hq hj,
    parseFrame_mismatch base _ _ _ _ ht (Chunk.len_toNat hc).symm hcrc, Chunk.len_toNat hc]

theorem parseFrame_flip_type_bad (ha : isAlpha (typeByte c.type q ^^^ (1 : Byte) <<< j) = false) :
    parseFrame base (flipBit c.frame (4 + q) j) = .error (errorAt .invalidTypeBytes .type (base + 4 + q) 0) := by
  rw [Chunk.frame, flipBit_frame_type _ _ _ _ hq hj, frameBytes_eq_header]
  refine parseFrame_bad_type base _ _ _ q hq ?_ fun i hi => typeByte_flip_letters hc hq hj i (by omega) hi.ne
  rw [typeByte_flip_same hq hj, ha]

omit hc in
/-- A frame with a bit of its length flipped, as the frame parser reads it. -/
theorem flip_len_header : flipBit c.frame q j = be32Bytes (flipField (BitVec.ofNat 32 c.data.length) (fieldBit q j)) ++
    be32Bytes c.type ++ (c.data ++ be32Bytes c.crc) := by
  rw [Chunk.frame, flipBit_frame_len _ _ _ _ hq hj, frameBytes_eq_header]

/-- The length, with a bit flipped that is 0 in it. -/
theorem flip_len_of_clear (hL : c.data.length.testBit (fieldBit q j) = false) :
    (flipField (BitVec.ofNat 32 c.data.length) (fieldBit q j)).toNat = c.data.length + 2 ^ fieldBit q j := by
  rw [flipField_toNat_of_clear _ (fieldBit_lt hq hj), Chunk.len_toNat hc]
  rwa [BitVec.getLsbD, Chunk.len_toNat hc]

/-- The length, with a bit flipped that is 1 in it. -/
theorem flip_len_of_set (hL : c.data.length.testBit (fieldBit q j) = true) :
    (flipField (BitVec.ofNat 32 c.data.length) (fieldBit q j)).toNat = c.data.length - 2 ^ fieldBit q j := by
  have hset : (BitVec.ofNat 32 c.data.length).getLsbD (fieldBit q j) = true := by
    rwa [BitVec.getLsbD, Chunk.len_toNat hc]
  have hsum := flipField_toNat_of_set _ (fieldBit_lt hq hj) hset
  rw [Chunk.len_toNat hc] at hsum
  omega

theorem parseFrame_flip_len_small (hL : c.data.length.testBit (fieldBit q j) = false) (hm : fieldBit q j ≤ 2) :
    parseFrame base (flipBit c.frame q j) =
      .error (errorAt .truncatedData .crc (base + 8 + (c.data.length + 2 ^ fieldBit q j)) 0) := by
  have hlen := flip_len_of_clear hc hq hj hL
  have hpow : 2 ^ fieldBit q j ≤ 2 ^ 2 := Nat.pow_le_pow_right (by decide) hm
  have hpos : 0 < 2 ^ fieldBit q j := Nat.two_pow_pos _
  rw [flip_len_header hq hj, parseFrame_short_crc base _ _ _ hc.1 (by simp [hlen]; omega) (by simp [hlen]), hlen]

theorem parseFrame_flip_len_large (hL : c.data.length.testBit (fieldBit q j) = false) (hm : 3 ≤ fieldBit q j) :
    parseFrame base (flipBit c.frame q j) = .error (errorAt .truncatedData .data (base + 8) 0) := by
  have hlen := flip_len_of_clear hc hq hj hL
  have hpow : 2 ^ 3 ≤ 2 ^ fieldBit q j := Nat.pow_le_pow_right (by decide) hm
  rw [flip_len_header hq hj, parseFrame_short_data base _ _ _ hc.1 (by simp [hlen]; omega)]

theorem parseFrame_flip_len_set (hL : c.data.length.testBit (fieldBit q j) = true) :
    parseFrame base (flipBit c.frame q j) =
      .error (errorAt .trailingBytes .trailing (base + 12 + (c.data.length - 2 ^ fieldBit q j)) 0) := by
  have hlen := flip_len_of_set hc hq hj hL
  have hle : 2 ^ fieldBit q j ≤ c.data.length := Nat.ge_two_pow_of_testBit hL
  have hpos : 0 < 2 ^ fieldBit q j := Nat.two_pow_pos _
  rw [flip_len_header hq hj, parseFrame_trailing base _ _ _ hc.1 (by simp [hlen]; omega), hlen]

end

end ParseFlip

/-! ## The obligations -/

/-- Settles O35: the chunk's frame parses to the descriptor of the chunk. -/
theorem chunkParseAcceptsAWellFormedFrame : Obligations.ChunkParseAcceptsAWellFormedFrame := by
  intro s c hc hr hlen hh
  rw [exec_chunkParse_of_ok hr (by rw [Chunk.frame_length, hlen]) hh (parseFrame_chunk s.src c hc)]
  simp only [Chunk.entry, Chunk.len_toNat hc, ← hlen, State.ofNat_len]

/-- Settles O36: after the range is read, the errors are those of the frame parser in its order. -/
theorem chunkParseRejectsInReadOrder : Obligations.ChunkParseRejectsInReadOrder := by
  intro s
  refine ⟨exec_chunkParse_outside, exec_chunkParse_of_unwritten, fun b hr hl hb => ?_⟩
  have err : ∀ {e}, parseFrame s.src b = .error e → exec .chunkParse s = .next (s.failed e) :=
    exec_chunkParse_of_error hr hl hb
  refine ⟨fun h4 => s.ofNat_src ▸ err (parseFrame_no_length _ b h4), fun h4 h8 => err (parseFrame_no_type _ b h4 h8), ?_⟩
  rintro len t x rfl
  refine ⟨fun k hk hbad hmin => err (parseFrame_bad_type _ len t x k hk hbad hmin),
    fun ht h => err (parseFrame_short_data _ len t x ht h), fun ht h h' => err (parseFrame_short_crc _ len t x ht h h'),
    fun ht h => err (parseFrame_trailing _ len t x ht h), ?_⟩
  rintro d stored ht hd rfl hcrc
  rw [← frameBytes_eq_header] at err
  exact err (parseFrame_mismatch _ len t d stored ht hd hcrc)

/-- Settles O37: the bytes of the frame are written in a row, and a write changes no byte outside its range. -/
theorem chunkBuildWritesTheFrame : Obligations.ChunkBuildWritesTheFrame := by
  intro s d ht hs hd ho hl hh
  refine ⟨_, exec_chunkBuild_of_holds (chunkBuildCheck_eq_none_iff.mpr ⟨ht, hs, hd, ho⟩) hl hh, rfl,
    State.holds_written rfl, fun a ha => Memory.read_writeRange_outside _ ?_ ha⟩
  rw [frameBytes_length, hl]

/-- Settles O38: each error is that of the first check that fails, and the source is read after them all. -/
theorem chunkBuildRejectsInOrder : Obligations.ChunkBuildRejectsInOrder := by
  intro s
  refine ⟨fun k hk hbad hmin => exec_chunkBuild_of_error (chunkBuildCheck_of_firstBad hk hbad hmin),
    fun ht h => exec_chunkBuild_of_error (chunkBuildCheck_source ht h),
    fun ht h hd => exec_chunkBuild_of_error (chunkBuildCheck_destination ht h hd), fun ht h hd ⟨hpos, hlt, hlt'⟩ => ?_,
    fun ht h hd ho => exec_chunkBuild_of_unwritten (chunkBuildCheck_eq_none_iff.mpr ⟨ht, h, hd, ho⟩)⟩
  exact exec_chunkBuild_of_error (chunkBuildCheck_overlap ht h hd ⟨hpos, by omega, hlt, hlt'⟩)

/-- Settles O39: the frame that is built is well formed and parses to its fields, and a parse succeeds on such frames only. -/
theorem chunkRoundTrip : Obligations.ChunkRoundTrip := by
  constructor
  · intro s t u d hbuild hcode hl hh hparams hsrc hlen hsame
    rcases execChunkBuild_cases hbuild with ⟨e, he, hn⟩ | ⟨hf, -⟩ | ⟨d', hc, hl', hh', hn⟩
    · cases hn
      exact absurd hcode he.1
    · cases hf
    cases hn
    obtain rfl := State.holds_unique (hl'.trans hl.symm) hh' hh
    obtain ⟨ht, -, hd, -⟩ := chunkBuildCheck_none hc
    have husrc : u.src = s.dst := congrArg BitVec.toNat hsrc
    have hframe : u.Holds s.dst (frameBytes s.latch.srcLen s.ty d' (crc32 (be32Bytes s.ty ++ d'))) :=
      State.holds_congr (State.holds_written rfl) fun x hlo hhi =>
        hsame x hlo (by rw [frameBytes_length, hl'] at hhi; exact hhi)
    refine ⟨?_, State.holds_frame_data hframe⟩
    have hr : u.InRange u.src u.len := by rw [State.InRange, hparams, husrc, hlen]; exact hd
    rw [exec_chunkParse_of_ok hr (by rw [frameBytes_length, hl', hlen]) (husrc ▸ hframe)
      (parseFrame_frame u.src _ _ _ hl' ht), husrc]
    rfl
  · intro s t hparse hcode
    rcases execChunkParse_cases hparse with ⟨e, he, hn⟩ | ⟨hf, -⟩ | ⟨b, e, hr, hl, hh, hp, hn⟩
    · cases hn
      exact absurd hcode he.1
    · cases hf
    cases hn
    obtain ⟨d, hd, -, -, haddr, rfl⟩ := parseFrame_ok hp
    have hlen : s.len = 12 + d.length := by rw [← hl, frameBytes_length]
    have hbound : s.src + (12 + d.length) < 2 ^ 32 := hlen ▸ hr.trans_lt s.params.bufBytes.isLt
    have hdata : e.addr.toNat = s.src + 8 := by
      rw [haddr]
      exact Nat.mod_eq_of_lt (by omega)
    exact ⟨d, hd, hlen, hdata, State.holds_frame_data hh, hh⟩

/-- Settles O40: one lemma for each field that the flipped bit can lie in. -/
theorem singleBitCorruptionIsRejected : Obligations.SingleBitCorruptionIsRejected := by
  intro s c p j hc hp hj hr hlen hh
  have err : ∀ {e}, parseFrame s.src (flipBit c.frame p j) = .error e → exec .chunkParse s = .next (s.failed e) :=
    exec_chunkParse_of_error hr (by rw [flipBit_length, Chunk.frame_length, hlen]) hh
  refine ⟨fun hcrc => ?crc, fun h8 hdata => ?data, fun k hk hpk => ?type, fun m hp4 hm hL => ?clear, fun m hp4 hm hL => ?set⟩
  case crc =>
    obtain ⟨q, rfl⟩ := Nat.exists_eq_add_of_le hcrc
    exact err (parseFrame_flip_crc s.src hc (by omega) hj)
  case data =>
    obtain ⟨q, rfl⟩ := Nat.exists_eq_add_of_le h8
    exact err (parseFrame_flip_data s.src hc (by omega) hj)
  case type =>
    subst hpk
    refine ⟨fun ha => err (parseFrame_flip_type_letter s.src hc hk hj ha), ?_,
      fun ha => err (parseFrame_flip_type_bad s.src hc hk hj ha)⟩
    rintro rfl
    exact isAlpha_flip_case _ ((typeOk_iff c.type).mp hc.1 k hk)
  case clear =>
    subst hm
    exact ⟨fun hsmall => err (parseFrame_flip_len_small s.src hc hp4 hj hL hsmall),
      fun hlarge => err (parseFrame_flip_len_large s.src hc hp4 hj hL hlarge)⟩
  case set =>
    subst hm
    exact err (parseFrame_flip_len_set s.src hc hp4 hj hL)

end Sys2Proof.Machine
end

section
/-! PROOFS. CONT_PARSE (43_container.md R172): what it accepts, and what it answers otherwise. -/

namespace Sys2Proof.Machine

/-! ## The command, by what the container parser answers -/

section ContParse

variable {s : State} {b : List Byte}

theorem exec_contParse_outside (h : ¬ s.InRange s.src s.len) : exec .contParse s =
    .next (s.parseFailed { code := .rangeError, field := .operand, offset := 0x20, index := 0 }) :=
  if_pos h

theorem exec_contParse_of_unwritten (h : s.InRange s.src s.len) (hu : s.Unwritten s.src s.len) :
    exec .contParse s = .fault .commandReadUnwritten :=
  (if_neg (not_not.mpr h)).trans (State.withBytes_of_unwritten _ hu)

variable (h : s.InRange s.src s.len) (hl : b.length = s.len) (hb : s.Holds s.src b)
include h hl hb

theorem exec_contParse_of_error {e : ErrorRecord} (hp : parseContainer s.params.maxChunks.toNat s.src b = .error e) :
    exec .contParse s = .next (s.parseFailed e) := by
  refine (if_neg (not_not.mpr h)).trans ((State.withBytes_of_holds _ hl hb).trans ?_)
  rw [hp]
  rfl

theorem exec_contParse_of_ok {tbl : List Descriptor} (hp : parseContainer s.params.maxChunks.toNat s.src b = .ok tbl) :
    exec .contParse s = .next { s with
      ct := tbl
      res := { s.res with outLen := s.latch.srcLen }
      status := { s.status with busy := false, cvalid := true } } := by
  refine (if_neg (not_not.mpr h)).trans ((State.withBytes_of_holds _ hl hb).trans ?_)
  rw [hp]
  rfl

end ContParse

/-! ## The errors of one turn of the loop, in the order of its checks -/

section Turn

variable (cap fuel pos i : Nat) (tbl : List Descriptor)

theorem parseChunks_no_length {rest : List Byte} (h0 : 0 < rest.length) (h4 : rest.length < 4) :
    parseChunks cap (fuel + 1) pos i rest tbl = .error (errorAt .incompleteChunk .length pos i) := by
  simp only [parseChunks]
  rw [if_neg (by omega), if_pos h4]

theorem parseChunks_no_type {rest : List Byte} (h4 : 4 ≤ rest.length) (h8 : rest.length < 8) :
    parseChunks cap (fuel + 1) pos i rest tbl = .error (errorAt .incompleteChunk .type (pos + 4) i) := by
  simp only [parseChunks]
  rw [if_neg (by omega), if_neg (by omega), if_pos h8]

variable (len t : Word)

theorem parseChunks_short_data {x : List Byte} (h : x.length < len.toNat) :
    parseChunks cap (fuel + 1) pos i (be32Bytes len ++ be32Bytes t ++ x) tbl =
      .error (errorAt .incompleteChunk .data (pos + 8) i) := by
  obtain ⟨hlen, -, hlength, -⟩ := header_fields len t x
  simp only [parseChunks, hlen, hlength]
  rw [if_neg (by omega), if_neg (by omega), if_neg (by omega), if_pos (by omega)]

theorem parseChunks_short_crc {x : List Byte} (h : len.toNat ≤ x.length) (h' : x.length < len.toNat + 4) :
    parseChunks cap (fuel + 1) pos i (be32Bytes len ++ be32Bytes t ++ x) tbl =
      .error (errorAt .incompleteChunk .crc (pos + 8 + len.toNat) i) := by
  obtain ⟨hlen, -, hlength, -⟩ := header_fields len t x
  simp only [parseChunks, hlen, hlength]
  rw [if_neg (by omega), if_neg (by omega), if_neg (by omega), if_neg (by omega), if_pos (by omega)]

/-- Where the whole frame is there, the frame parser's error stands, with the chunk's index. -/
theorem parseChunks_frame_error {x : List Byte} {e : ErrorRecord} (h : len.toNat + 4 ≤ x.length)
    (he : parseFrame pos (be32Bytes len ++ be32Bytes t ++ x.take (4 + len.toNat)) = .error e) :
    parseChunks cap (fuel + 1) pos i (be32Bytes len ++ be32Bytes t ++ x) tbl =
      .error { e with index := BitVec.ofNat 32 i } := by
  obtain ⟨hlen, -, hlength, -⟩ := header_fields len t x
  have htake : (be32Bytes len ++ be32Bytes t ++ x).take (12 + len.toNat) =
      be32Bytes len ++ be32Bytes t ++ x.take (4 + len.toNat) := by
    rw [show 12 + len.toNat = (be32Bytes len ++ be32Bytes t).length + (4 + len.toNat) by simp; omega,
      List.take_length_add_append]
  simp only [parseChunks, hlen, hlength, htake, he]
  rw [if_neg (by omega), if_neg (by omega), if_neg (by omega), if_neg (by omega), if_neg (by omega)]

theorem parseChunks_bad_type {x : List Byte} (h : len.toNat + 4 ≤ x.length) {k : Nat} (hk : k < 4)
    (hbad : isAlpha (typeByte t k) = false) (hmin : ∀ j, j < k → isAlpha (typeByte t j) = true) :
    parseChunks cap (fuel + 1) pos i (be32Bytes len ++ be32Bytes t ++ x) tbl =
      .error (errorAt .invalidTypeBytes .type (pos + 4 + k) i) :=
  parseChunks_frame_error cap fuel pos i tbl len t h (parseFrame_bad_type pos len t _ k hk hbad hmin)

theorem frameBytes_append_eq_header (crc : Word) (d more : List Byte) :
    frameBytes len t d crc ++ more = be32Bytes len ++ be32Bytes t ++ (d ++ be32Bytes crc ++ more) := by
  rw [frameBytes_eq_header, List.append_assoc]

theorem parseChunks_mismatch {d : List Byte} (more : List Byte) {stored : Word} (ht : typeOk t = true)
    (hd : d.length = len.toNat) (hcrc : stored ≠ crc32 (be32Bytes t ++ d)) :
    parseChunks cap (fuel + 1) pos i (frameBytes len t d stored ++ more) tbl =
      .error (errorAt .checksumMismatch .crc (pos + 8 + len.toNat) i) := by
  have htake : (d ++ be32Bytes stored ++ more).take (4 + len.toNat) = d ++ be32Bytes stored :=
    List.take_left' (by rw [List.length_append, be32Bytes_length, hd, Nat.add_comm])
  rw [frameBytes_append_eq_header]
  refine parseChunks_frame_error cap fuel pos i tbl len t (by simp [hd])
    (e := errorAt .checksumMismatch .crc (pos + 8 + len.toNat) 0) ?_
  rw [htake, ← frameBytes_eq_header]
  exact parseFrame_mismatch pos len t d stored ht hd hcrc

/-- The table is full when another well-formed frame is met. -/
theorem parseChunks_full {d : List Byte} (more : List Byte) (ht : typeOk t = true) (hd : d.length = len.toNat) :
    parseChunks cap (fuel + 1) pos cap (frameBytes len t d (crc32 (be32Bytes t ++ d)) ++ more) tbl =
      .error (errorAt .capacityExceeded .operand pos cap) := by
  have hlen := frame_len_field len t (crc32 (be32Bytes t ++ d)) d more
  have htake := frame_take len t (crc32 (be32Bytes t ++ d)) d more
  rw [hd] at htake
  simp only [parseChunks, hlen, htake, parseFrame_frame pos len t d hd ht, List.length_append, frameBytes_length, hd]
  rw [if_neg (by omega), if_neg (by omega), if_neg (by omega), if_neg (by omega), if_neg (by omega),
    if_pos trivial]

end Turn

/-! ## The container parser after whole well-formed frames -/

/-- The parser comes to what follows the signature and the frames with the table of these frames. -/
theorem parseContainer_frames {cap : Nat} {cs : List Chunk} (src : Nat) (rest : List Byte) (hok : ∀ c ∈ cs, c.ok)
    (hn : cs.length ≤ cap) : ∃ fuel tbl, parseContainer cap src (signature ++ framesOf cs ++ rest) =
      parseChunks cap (fuel + 1) (src + 8 + (framesOf cs).length) cs.length rest tbl := by
  have htake : (signature ++ framesOf cs ++ rest).take 8 = signature := by rw [List.append_assoc]; rfl
  have hdrop : (signature ++ framesOf cs ++ rest).drop 8 = framesOf cs ++ rest := by rw [List.append_assoc]; rfl
  have hlength : (signature ++ framesOf cs ++ rest).length = (7 + (framesOf cs ++ rest).length) + 1 := by
    rw [List.append_assoc, List.length_append, show signature.length = 8 from rfl]
    omega
  refine ⟨7 + (framesOf cs ++ rest).length, [] ++ tableOf (src + 8) cs, ?_⟩
  have hsig : ¬ ((signature ++ framesOf cs ++ rest).length < 8 ∨ (signature ++ framesOf cs ++ rest).take 8 ≠ signature) := by
    rw [htake, hlength]
    simp
  rw [parseContainer, if_neg hsig, hdrop, hlength,
    parseChunks_frames hok (by omega) (by omega), Nat.zero_add]

/-- An error of the loop after the frames `cs` is the command's error. -/
theorem exec_contParse_of_turn {s : State} {cs : List Chunk} {rest : List Byte} {e : ErrorRecord}
    (h : s.InRange s.src s.len) (hl : (signature ++ framesOf cs ++ rest).length = s.len)
    (hb : s.Holds s.src (signature ++ framesOf cs ++ rest)) (hok : ∀ c ∈ cs, c.ok)
    (hn : cs.length ≤ s.params.maxChunks.toNat)
    (he : ∀ fuel tbl, parseChunks s.params.maxChunks.toNat (fuel + 1) (s.src + 8 + (framesOf cs).length) cs.length rest tbl =
      .error e) : exec .contParse s = .next (s.parseFailed e) := by
  obtain ⟨fuel, tbl, hp⟩ := parseContainer_frames s.src rest hok hn
  exact exec_contParse_of_error h hl hb (hp.trans (he fuel tbl))

/-! ## The obligations -/

/-- Settles O41: an image of the signature and well-formed frames is what the container parser accepts. -/
theorem contParseLoadsTheTable : Obligations.ContParseLoadsTheTable := by
  intro s cs hok hn hr hlen hh
  refine exec_contParse_of_ok (b := signature ++ framesOf cs) hr ?_ hh (parseContainer_ok_iff.mpr ⟨cs, hok, hn, rfl, rfl⟩)
  rw [List.length_append, hlen]
  rfl

/-- Settles O42: a success that left ERR_CODE = 0 is the parser's success. -/
theorem contParseAcceptsOnlyContainers : Obligations.ContParseAcceptsOnlyContainers := by
  intro s t hexec hcode
  rcases execContParse_cases hexec with ⟨e, he, ht⟩ | ⟨hf, -⟩ | ⟨cs, hok, hn, -, hlen, hh, ht⟩
  · cases ht
    exact absurd hcode he.1
  · cases hf
  · cases ht
    exact ⟨cs, hok, hn, hlen, hh, rfl, rfl⟩

/-- Settles O43: the loop reaches the fault with the frames before it in the table, and its next turn raises the error. -/
theorem contParseRejectsInWireOrder : Obligations.ContParseRejectsInWireOrder := by
  intro s
  refine ⟨exec_contParse_outside, exec_contParse_of_unwritten, fun b hr hl hb => ⟨fun hsig => ?signature, ?turn⟩⟩
  case signature =>
    rw [← s.ofNat_src]
    exact exec_contParse_of_error hr hl hb (if_pos hsig)
  case turn =>
    rintro cs rest pos hok hn rfl rfl
    have err := fun {e} => exec_contParse_of_turn (e := e) hr hl hb hok hn
    refine ⟨fun h0 h4 => err fun _ _ => parseChunks_no_length _ _ _ _ _ h0 h4,
      fun h4 h8 => err fun _ _ => parseChunks_no_type _ _ _ _ _ h4 h8, ?_⟩
    rintro len t x rfl
    refine ⟨fun h => err fun _ _ => parseChunks_short_data _ _ _ _ _ len t h,
      fun h h' => err fun _ _ => parseChunks_short_crc _ _ _ _ _ len t h h',
      fun h k hk hbad hmin => err fun _ _ => parseChunks_bad_type _ _ _ _ _ len t h hk hbad hmin, ?_⟩
    rintro d more stored hd rfl ht
    rw [← frameBytes_append_eq_header] at err
    refine ⟨fun hcrc => err fun _ _ => parseChunks_mismatch _ _ _ _ _ len t more ht hd hcrc, ?_⟩
    rintro rfl hfull
    refine err fun _ _ => ?_
    rw [hfull]
    exact parseChunks_full _ _ _ _ len t more ht hd

end Sys2Proof.Machine
end

section
/-! PROOFS. CONT_SERIALIZE (43_container.md R174), and what its image parses back to (R184). -/

namespace Sys2Proof.Machine

/-! ## The image (R171) -/

theorem framesImage_cons_eq_some_iff {m : Memory} {e : Descriptor} {l : List Descriptor} {b : List Byte} :
    framesImage m (e :: l) = some b ↔ ∃ d y, m.readRange e.addr.toNat e.len.toNat = some d ∧ framesImage m l = some y ∧
      b = frameBytes e.len e.type d e.crc ++ y := by
  rcases hr : m.readRange e.addr.toNat e.len.toNat with _ | d
  · simp [framesImage, descriptorBytes, hr]
  · rcases hl : framesImage m l with _ | y
    · simp [framesImage, descriptorBytes, hl]
    · simp [framesImage, descriptorBytes, hr, hl, eq_comm]

/-- The image of a table in two parts is the two images in a row. -/
theorem framesImage_append {m : Memory} {x y : List Descriptor} {b : List Byte} (h : framesImage m (x ++ y) = some b) :
    ∃ bx bz, framesImage m x = some bx ∧ framesImage m y = some bz ∧ b = bx ++ bz := by
  induction x generalizing b with
  | nil => exact ⟨[], b, rfl, h, rfl⟩
  | cons e x ih =>
    obtain ⟨d, z, hd, hz, rfl⟩ := framesImage_cons_eq_some_iff.mp h
    obtain ⟨bx, bz, hx, hy, rfl⟩ := ih hz
    exact ⟨_, bz, framesImage_cons_eq_some_iff.mpr ⟨d, bx, hd, hx, rfl⟩, hy, (List.append_assoc ..).symm⟩

/-- The image has the data that the regions hold, frame by frame. -/
theorem framesImage_of_holds {s : State} {l : List Descriptor} {ds : List (List Byte)}
    (h : List.Forall₂ (fun e d => d.length = e.len.toNat ∧ s.Holds e.addr.toNat d) l ds) :
    framesImage s.buf l = some (framesWith l ds) := by
  induction h with
  | nil => rfl
  | cons hd _ ih =>
    obtain ⟨hl, hh⟩ := hd
    exact framesImage_cons_eq_some_iff.mpr ⟨_, _, hl ▸ (s.holds_iff _ _).mp hh, ih, rfl⟩

/-- There is no image where a region has an unwritten byte. -/
theorem framesImage_of_unwritten {s : State} {l : List Descriptor} {e : Descriptor} (he : e ∈ l)
    (hu : s.Unwritten e.addr.toNat e.len.toNat) : framesImage s.buf l = none := by
  obtain ⟨x, y, rfl⟩ := List.append_of_mem he
  refine Option.eq_none_iff_forall_ne_some.mpr fun b hb => ?_
  obtain ⟨bx, bz, -, hy, -⟩ := framesImage_append hb
  obtain ⟨d, z, hd, -⟩ := framesImage_cons_eq_some_iff.mp hy
  rw [(Memory.readRange_eq_none ..).mpr hu] at hd
  cases hd

/-- The image depends on the regions only. -/
theorem framesImage_congr {m m' : Memory} {l : List Descriptor}
    (h : ∀ e ∈ l, m.readRange e.addr.toNat e.len.toNat = m'.readRange e.addr.toNat e.len.toNat) :
    framesImage m l = framesImage m' l := by
  induction l with
  | nil => rfl
  | cons e l ih =>
    obtain ⟨he, hl⟩ := List.forall_mem_cons.mp h
    rw [framesImage, framesImage, descriptorBytes, descriptorBytes, he, ih hl]

theorem image_length {m : Memory} {l : List Descriptor} {frames : List Byte} (h : framesImage m l = some frames) :
    (signature ++ frames).length = imageLen l := by
  rw [List.length_append, framesImage_length h]
  rfl

/-- MemRead of a range is not changed by a write that does not overlap it (R63). -/
theorem Memory.readRange_writeRange (m : Memory) {a b n : Nat} {bs : List Byte} (h : ¬ Overlaps a bs.length b n) :
    (m.writeRange a bs).readRange b n = m.readRange b n := by
  have same : ∀ k, k < n → (m.writeRange a bs).read (b + k) = m.read (b + k) := fun k hk => by
    rw [Memory.read_writeRange]
    refine if_neg fun hin => h ⟨?_, ?_, ?_, ?_⟩ <;> omega
  refine Option.ext fun d => ?_
  rw [Memory.readRange_eq_some, Memory.readRange_eq_some]
  exact and_congr_right fun _ => forall₂_congr fun k hk => by rw [same k hk]

/-! ## The command, by its checks and its image -/

section ContSerialize

variable {s : State}

theorem exec_contSerialize_of_error {e : ErrorRecord} (h : contSerializeCheck s = some e) :
    exec .contSerialize s = .next (s.failed e) := by
  rw [exec, execContSerialize, h]
  rfl

theorem exec_contSerialize_of_none (h : contSerializeCheck s = none) (hi : framesImage s.buf s.ct = none) :
    exec .contSerialize s = .fault .commandReadUnwritten := by
  rw [exec, execContSerialize, h, hi]

theorem exec_contSerialize_of_some {frames : List Byte} (h : contSerializeCheck s = none)
    (hi : framesImage s.buf s.ct = some frames) : exec .contSerialize s = .next { s with
      buf := s.buf.writeRange s.dst (signature ++ frames)
      res := { s.res with outLen := BitVec.ofNat 32 (imageLen s.ct) }
      status := { s.status with busy := false } } := by
  rw [exec, execContSerialize, h, hi]
  rfl

theorem contSerializeCheck_noContainer (hv : s.status.cvalid = false) :
    contSerializeCheck s = some (errorAt .noContainer .operand 0 0) := by
  rw [contSerializeCheck, if_pos (by rw [hv]; rfl)]

variable (hv : s.status.cvalid = true)
include hv

theorem contSerializeCheck_destination (h : ¬ s.InRange s.dst (imageLen s.ct)) :
    contSerializeCheck s = some (errorAt .rangeError .operand 0x28 0) := by
  rw [contSerializeCheck, if_neg (by rw [hv]; decide), if_pos h]

theorem contSerializeCheck_overlap (h : s.InRange s.dst (imageLen s.ct))
    (ho : ∃ e ∈ s.ct, Overlaps s.dst (imageLen s.ct) e.addr.toNat e.len.toNat) :
    contSerializeCheck s = some (errorAt .overlapError .operand 0x28 0) := by
  obtain ⟨e, he, hover⟩ := ho
  rw [contSerializeCheck, if_neg (by rw [hv]; decide), if_neg (not_not.mpr h),
    if_pos (List.any_eq_true.mpr ⟨e, he, decide_eq_true hover⟩)]

end ContSerialize

/-- A CONT_SERIALIZE that left ERR_CODE = 0 has passed its checks and written its image. -/
theorem contSerialize_success {s t : State} (hexec : exec .contSerialize s = .next t) (hcode : t.err.code = .none) :
    ∃ frames, contSerializeCheck s = none ∧ framesImage s.buf s.ct = some frames ∧
      t.buf = s.buf.writeRange s.dst (signature ++ frames) ∧ t.res.outLen = BitVec.ofNat 32 (imageLen s.ct) := by
  rcases execContSerialize_cases hexec with ⟨e, he, ht⟩ | ⟨hf, -⟩ | ⟨frames, hc, hi, ht⟩
  · cases ht
    exact absurd hcode he.1
  · cases hf
  · cases ht
    exact ⟨frames, hc, hi, rfl, rfl⟩

/-! ## Parsing the image again (R184) -/

/-- State `u` has the image that serializing `s` left in `t` for its source range, no byte of it written since. -/
structure Reparses (s t u : State) : Prop where
  params : u.params = s.params
  src : u.latch.srcAddr = s.latch.dstAddr
  len : u.latch.srcLen = t.res.outLen
  buf : ∀ a, s.dst ≤ a → a < s.dst + imageLen s.ct → u.buf.read a = t.buf.read a

/-- What CONT_PARSE finds in its range then. -/
theorem Reparses.range {s t u : State} (h : Reparses s t u) {frames : List Byte} (hc : contSerializeCheck s = none)
    (hi : framesImage s.buf s.ct = some frames) (hbuf : t.buf = s.buf.writeRange s.dst (signature ++ frames))
    (hout : t.res.outLen = BitVec.ofNat 32 (imageLen s.ct)) :
    u.src = s.dst ∧ u.InRange u.src u.len ∧ u.len = (signature ++ frames).length ∧ u.Holds u.src (signature ++ frames) := by
  obtain ⟨-, hr, -⟩ := contSerializeCheck_none hc
  have hsrc : u.src = s.dst := congrArg BitVec.toNat h.src
  have hlt : imageLen s.ct < 2 ^ 32 := by
    have := s.params.bufBytes.isLt
    unfold State.InRange at hr
    omega
  have hlen : u.len = imageLen s.ct := by
    rw [State.len, h.len, hout, BitVec.toNat_ofNat, Nat.mod_eq_of_lt hlt]
  refine ⟨hsrc, ?_, hlen.trans (image_length hi).symm, ?_⟩
  · rw [State.InRange, h.params, hsrc, hlen]
    exact hr
  · rw [hsrc]
    exact State.holds_congr (State.holds_written hbuf) fun x hlo hhi => h.buf x hlo (by rwa [image_length hi] at hhi)

/-- The chunks that the descriptors of a state with the invariant refer to can be put on the wire. -/
theorem chunks_ok {s : State} {l : List Descriptor} {cs : List Chunk} (ht : ∀ e ∈ l, typeOk e.type = true)
    (h : List.Forall₂ s.RefersTo l cs) : ∀ c ∈ cs, c.ok := by
  induction h with
  | nil => simp
  | @cons e c l cs hd _ ih =>
    obtain ⟨htype, hlen, -, -⟩ := hd
    obtain ⟨he, hl⟩ := List.forall_mem_cons.mp ht
    exact List.forall_mem_cons.mpr ⟨⟨htype ▸ he, hlen ▸ e.len.isLt⟩, ih hl⟩

/-- A table laid out over frames that stand in the buffer refers to their chunks. -/
theorem refersTo_tableOf {u : State} {cs : List Chunk} {pos : Nat} (hok : ∀ c ∈ cs, c.ok)
    (hlt : pos + (framesOf cs).length < 2 ^ 32) (hh : u.Holds pos (framesOf cs)) :
    List.Forall₂ u.RefersTo (tableOf pos cs) cs := by
  induction cs generalizing pos with
  | nil => exact .nil
  | cons c cs ih =>
    obtain ⟨hc, hcs⟩ := List.forall_mem_cons.mp hok
    rw [framesOf_cons, List.length_append, Chunk.frame_length] at hlt
    obtain ⟨hframe, hrest⟩ := (u.holds_append pos _ _).mp hh
    rw [Chunk.frame_length, ← Nat.add_assoc] at hrest
    refine .cons ⟨rfl, Chunk.len_toNat hc, rfl, ?_⟩ (ih hcs (by omega) hrest)
    have haddr : (c.entry pos).addr.toNat = pos + 8 := Nat.mod_eq_of_lt (by omega)
    rw [haddr]
    exact State.holds_frame_data hframe

/-! ## The obligations -/

/-- Settles O44: with every region written there is an image, and it is written in a row. -/
theorem contSerializeWritesTheImage : Obligations.ContSerializeWritesTheImage := by
  intro s ds hv hds hr ho
  have hi := framesImage_of_holds hds
  have hlen := image_length hi
  refine ⟨_, exec_contSerialize_of_some (contSerializeCheck_eq_none_iff.mpr ⟨hv, hr, ho⟩) hi, rfl, ?_,
    State.holds_written rfl, fun a ha => Memory.read_writeRange_outside _ hlen ha⟩
  rw [← hlen, List.length_append, Nat.add_comm]
  rfl

/-- Settles O45: each error is that of the first check that fails, and the regions are read after them all. -/
theorem contSerializeRejectsInOrder : Obligations.ContSerializeRejectsInOrder := by
  intro s
  refine ⟨fun hv => exec_contSerialize_of_error (contSerializeCheck_noContainer hv),
    fun hv h => exec_contSerialize_of_error (contSerializeCheck_destination hv h),
    fun hv h ho => exec_contSerialize_of_error (contSerializeCheck_overlap hv h ho), fun hv h ho ⟨e, he, hu⟩ => ?_⟩
  exact exec_contSerialize_of_none (contSerializeCheck_eq_none_iff.mpr ⟨hv, h, ho⟩) (framesImage_of_unwritten he hu)

/-- Settles O51: the image is that of the chunks referred to, which parses to their table; and as it overlaps no region, a
second serialization reads the same data. -/
theorem containerRoundTrip : Obligations.ContainerRoundTrip := by
  intro s t cs hinv hrefs hexec hcode
  obtain ⟨frames, hc, hi, hbuf, hout⟩ := contSerialize_success hexec hcode
  have hlen := image_length hi
  refine ⟨fun u hparams hsrc hulen hsame => ?reparse, fun v w hv hct hexec' hcode' k hk => ?again⟩
  case reparse =>
    obtain rfl : framesOf cs = frames := Option.some.inj ((framesImage_eq hrefs).symm.trans hi)
    obtain ⟨husrc, hr, hlen', hh⟩ := (Reparses.mk hparams hsrc hulen hsame).range hc hi hbuf hout
    have hok := chunks_ok hinv.typesAreLetters hrefs
    have hfits : cs.length ≤ u.params.maxChunks.toNat := by
      rw [hparams, ← hrefs.length_eq]
      exact hinv.tableFits
    rw [List.length_append, show signature.length = 8 from rfl] at hlen'
    obtain ⟨-, hframes⟩ := (u.holds_append u.src signature _).mp hh
    rw [husrc] at hframes
    have hparse := contParseLoadsTheTable u cs hok hfits hr hlen' hh
    rw [husrc, hulen] at hparse
    refine ⟨hparse, refersTo_tableOf hok ?_ hframes⟩
    have := u.params.bufBytes.isLt
    unfold State.InRange at hr
    omega
  case again =>
    obtain ⟨frames', -, hi', hbuf', -⟩ := contSerialize_success hexec' hcode'
    have himage : framesImage v.buf v.ct = framesImage s.buf s.ct := by
      obtain ⟨-, -, ho⟩ := contSerializeCheck_none hc
      rw [hv, hct, hbuf]
      exact framesImage_congr fun e he => Memory.readRange_writeRange _ (hlen ▸ ho e he)
    obtain rfl : frames' = frames := Option.some.inj (hi'.symm.trans (himage.trans hi))
    rw [State.holds_written hbuf' k (hlen ▸ hk), State.holds_written hbuf k (hlen ▸ hk)]

/-- Settles O52: the frames before the broken one are well formed, and there the frame parser compares the crcs. -/
theorem reparseOfABrokenChunkMismatches : Obligations.ReparseOfABrokenChunkMismatches := by
  intro s t u pre post e cs d hinv hct hrefs hd hh hcrc hexec hcode hparams hsrc hulen hsame
  obtain ⟨frames, hc, hi, hbuf, hout⟩ := contSerialize_success hexec hcode
  obtain ⟨husrc, hr, hlen, hhu⟩ := (Reparses.mk hparams hsrc hulen hsame).range hc hi hbuf hout
  rw [hct] at hi
  obtain ⟨bpre, bpost, hpre, hpost, rfl⟩ := framesImage_append hi
  obtain rfl : framesOf cs = bpre := Option.some.inj ((framesImage_eq hrefs).symm.trans hpre)
  obtain ⟨d', more, hd', -, rfl⟩ := framesImage_cons_eq_some_iff.mp hpost
  obtain rfl : d = d' := Option.some.inj ((hd ▸ (s.holds_iff _ _).mp hh).symm.trans hd')
  rw [← List.append_assoc] at hlen hhu
  obtain ⟨hpreOk, hpostOk⟩ := List.forall_mem_append.mp (hct ▸ hinv.typesAreLetters)
  have hfits : cs.length ≤ u.params.maxChunks.toNat := by
    have htable := hinv.tableFits
    rw [hct, List.length_append, hrefs.length_eq] at htable
    rw [hparams]
    omega
  rw [hrefs.length_eq, ← husrc, hd]
  exact exec_contParse_of_turn hr hlen.symm hhu (chunks_ok hpreOk hrefs) hfits fun _ _ =>
    parseChunks_mismatch _ _ _ _ _ e.len e.type more (hpostOk e (by simp)) hd hcrc

end Sys2Proof.Machine
end
